-- ==== Sys2Proof/Word.lean ====
section
/-! DEFINITION. The word formats of the core (30_encoding.md R35, 00_scope.md R3): every word is unsigned and
bit 0 is its least significant bit. -/

namespace Sys2Proof

/-- One bit: a parity bit (R51 to R54). -/
abbrev Bit := BitVec 1

/-- Format INFO4: the information word, bit k holding info_bit k (R35). -/
abbrev Info4 := BitVec 4

/-- Format ADDR4: the ROM index, which is the information word whose codeword is wanted (R20, R35). -/
abbrev Addr4 := BitVec 4

/-- Format DIST4: a Hamming distance inside the decoder, values 0 to 8 (R35, D9). -/
abbrev Dist4 := BitVec 4

/-- Format CW8: a codeword, parity in bits 7 to 4 and information in bits 3 to 0 (R36). -/
abbrev Cw8 := BitVec 8

/-- Format RX8: a received word, every one of the 256 patterns legal (R35, R39). -/
abbrev Rx8 := BitVec 8

end Sys2Proof
end

