-- ==== Sys2Proof/Config.lean ====
section
/-! DEFINITION. What is fixed for the hardware (00_scope.md R2) and the parameters the spec leaves open
(92_eei_decisions.md D3). No value that an operation returns is open, so there is no free value. -/

namespace Sys2Proof

/-- K, the width of an information word and of a ROM index (R2). -/
def Config.infoWidth : Nat := 4

/-- N, the width of a codeword and of a received word (R2). -/
def Config.codewordWidth : Nat := 8

/-- M, the number of codebook entries, 2 to the K (R2). -/
def Config.entries : Nat := 16

/-- The width of a Hamming distance (R2, D9). -/
def Config.distWidth : Nat := 4

/-- T_ENC, the delay of the encoder: open, and no rule depends on it (R126, D3). -/
opaque Config.tEnc : Nat

/-- T_ROM, the delay of a ROM read: open, and no rule depends on it (R126, D3). -/
opaque Config.tRom : Nat

/-- T_DEC, the delay of the decoder: open, and no rule depends on it (R126, D3). -/
opaque Config.tDec : Nat

end Sys2Proof
end

