-- ==== Sys2Proof/Syntax.lean ====
section
/-! DEFINITION. The operations of the core (30_encoding.md R40), one constructor of Instr a row of
spec/opcode_table.json, and what a host asks for: an entry of the hardware and an operand word. -/

namespace Sys2Proof

/-- An operation together with its operands. -/
inductive Instr where
  /-- Parity bit 4 of an information word (R51). -/
  | par4 (info : Info4)
  /-- Parity bit 5 of an information word (R52). -/
  | par5 (info : Info4)
  /-- Parity bit 6 of an information word (R53). -/
  | par6 (info : Info4)
  /-- Parity bit 7 of an information word (R54). -/
  | par7 (info : Info4)
  /-- The generator-matrix product (R55). -/
  | gmul (info : Info4)
  /-- Encode, at the encoder's port (R56). -/
  | enc (info : Info4)
  /-- Build the codebook, at elaboration (R65). -/
  | cbbuild
  /-- Read one codebook word, at the ROM's port (R68). -/
  | romrd (addr : Addr4)
  /-- The Hamming distance of two words (R80). -/
  | hdist (a : Rx8) (b : Cw8)
  /-- The index of the first minimum of 16 distances (R84). -/
  | argmin (d : Vector Dist4 16)
  /-- Decode, at the decoder's port (R86). -/
  | dec (received : Rx8)
deriving DecidableEq, Repr

/-- Where an operation enters the hardware. No bit of an operand word selects an operation: the port that the
host drives does, or, for the operations that no port reaches, the sub-block that is named (R38, R45). -/
inductive Entry where
  | par4 | par5 | par6 | par7 | gmul | enc | cbbuild | romrd | hdist | argmin | dec
deriving DecidableEq, Repr

/-- Who can invoke an operation (R40). -/
inductive Level where
  /-- A host can, through a port. -/
  | port
  /-- It happens once, when the hardware is built. -/
  | elaboration
  /-- It is a sub-block, invoked by the operations of its module. -/
  | internal
deriving DecidableEq, Repr

/-- The three hardware modules (R1). -/
inductive Block where
  | hammingEncoder | hammingCodebookRom | hammingDecoder
deriving DecidableEq, Repr

/-- Who invokes an operation (R40, R112). -/
inductive Agent where
  /-- Whatever drives the ports. -/
  | host
  /-- The core itself: its elaboration, or the operation that a sub-block belongs to. -/
  | hardware
deriving DecidableEq, Repr

/-- What is asked for: who asks, an entry, and the value offered there as a number, which may be wider than the
entry's operand word (R100, R27). -/
structure Request where
  agent : Agent
  entry : Entry
  word : Nat
deriving DecidableEq, Repr

/-- The entry an operation uses (R40). -/
def Instr.entry : Instr → Entry
  | .par4 _ => .par4
  | .par5 _ => .par5
  | .par6 _ => .par6
  | .par7 _ => .par7
  | .gmul _ => .gmul
  | .enc _ => .enc
  | .cbbuild => .cbbuild
  | .romrd _ => .romrd
  | .hdist _ _ => .hdist
  | .argmin _ => .argmin
  | .dec _ => .dec

/-- The level column of R40. -/
def Entry.level : Entry → Level
  | .enc => .port
  | .romrd => .port
  | .dec => .port
  | .cbbuild => .elaboration
  | .par4 => .internal
  | .par5 => .internal
  | .par6 => .internal
  | .par7 => .internal
  | .gmul => .internal
  | .hdist => .internal
  | .argmin => .internal

/-- Who alone can invoke an operation at an entry, by its level (R40): the host reaches the ports and nothing else; it
cannot build the codebook or reach a sub-block (R112, D5). -/
def Entry.agent (e : Entry) : Agent :=
  match e.level with
  | .port => .host
  | .elaboration => .hardware
  | .internal => .hardware

/-- The module column of R40. -/
def Entry.block : Entry → Block
  | .par4 => .hammingEncoder
  | .par5 => .hammingEncoder
  | .par6 => .hammingEncoder
  | .par7 => .hammingEncoder
  | .gmul => .hammingEncoder
  | .enc => .hammingEncoder
  | .cbbuild => .hammingCodebookRom
  | .romrd => .hammingCodebookRom
  | .hdist => .hammingDecoder
  | .argmin => .hammingDecoder
  | .dec => .hammingDecoder

end Sys2Proof
end

