-- ==== Sys2Proof/WellFormed.lean ====
section
/-! DEFINITION. Which operations are within the spec's own operand ranges. The types already hold every word to
its width (R101, R27); the one range that they leave open is a distance's (R35: 9 to 15 never occur). -/

namespace Sys2Proof

/-- A distance of format DIST4 is 0 to 8 (R35, R84). -/
def Dist4.inRange (d : Dist4) : Bool := decide (d.toNat ≤ 8)

/-- The operands are in the ranges of R35. For ARGMIN, all 16 distances are 0 to 8 (R84); every value of every
other operand word is legal (R39, R41). -/
def Instr.wf : Instr → Bool
  | .par4 _ => true
  | .par5 _ => true
  | .par6 _ => true
  | .par7 _ => true
  | .gmul _ => true
  | .enc _ => true
  | .cbbuild => true
  | .romrd _ => true
  | .hdist _ _ => true
  | .argmin d => d.toList.all Dist4.inRange
  | .dec _ => true

end Sys2Proof
end

