-- ==== Sys2Proof/Decode.lean ====
section
/-! DEFINITION. Reading an operand word at an entry (30_encoding.md R35, R38, R45), and the encoder beside it.
The decoder is total on any entry and any number: a value that does not fit the entry's width is rejected by
name, never cut to it (R27, R61, R100), and so is a request by one that cannot invoke the operation (R40, R112). -/

namespace Sys2Proof

/-- Why a request stands for no operation. -/
inductive Reject where
  /-- An information word above 15 was offered to ENC; the offending value is recorded (R100). -/
  | infoOutOfRange (v : Nat)
  /-- A ROM index above 15 was offered to ROMRD (R27). -/
  | romIndexOutOfRange (v : Nat)
  /-- A value wider than the operand word of any other entry was offered there; no port or bus can carry it
  (R38, R45). -/
  | operandTooWide (entry : Entry) (v : Nat)
  /-- An operation was asked for by one that cannot invoke it: by the host what no port reaches, the building of the
  codebook or a sub-block, or by the hardware what only a port reaches (R40, R112, D5). -/
  | notInvocable (agent : Agent) (entry : Entry)
deriving DecidableEq, Repr

/-- How many bits an entry's operand word has (R40, R45). -/
def Entry.width : Entry → Nat
  | .par4 => Config.infoWidth
  | .par5 => Config.infoWidth
  | .par6 => Config.infoWidth
  | .par7 => Config.infoWidth
  | .gmul => Config.infoWidth
  | .enc => Config.infoWidth
  | .cbbuild => 0
  | .romrd => Config.infoWidth
  | .hdist => Config.codewordWidth + Config.codewordWidth
  | .argmin => Config.distWidth * Config.entries
  | .dec => Config.codewordWidth

/-- The n lowest nibbles of a word, the lowest first. -/
def unpackNibbles : Nat → Nat → List (BitVec 4)
  | 0, _ => []
  | n + 1, w => BitVec.ofNat 4 w :: unpackNibbles n (w / 16)

/-- Nibbles put together into a word, the first the lowest. -/
def packNibbles : List (BitVec 4) → Nat
  | [] => 0
  | d :: ds => d.toNat + 16 * packNibbles ds

theorem unpackNibbles_length (n w : Nat) : (unpackNibbles n w).length = n := by
  induction n generalizing w with
  | zero => rfl
  | succ n ih => simp [unpackNibbles, ih]

/-- The 16 distances of ARGMIN's operand word: d0 in bits 3 to 0, up to d15 in bits 63 to 60 (R45). -/
def unpackDistances (w : Nat) : Vector Dist4 16 :=
  ⟨(unpackNibbles 16 w).toArray, by simp [unpackNibbles_length]⟩

/-- The operation that an entry and a fitting operand word stand for: every bit of the word is operand (R38).
HDIST's word is a in bits 15 to 8 and b in bits 7 to 0 (R45). -/
def decodeFields (e : Entry) (w : Nat) : Instr :=
  match e with
  | .par4 => .par4 (BitVec.ofNat 4 w)
  | .par5 => .par5 (BitVec.ofNat 4 w)
  | .par6 => .par6 (BitVec.ofNat 4 w)
  | .par7 => .par7 (BitVec.ofNat 4 w)
  | .gmul => .gmul (BitVec.ofNat 4 w)
  | .enc => .enc (BitVec.ofNat 4 w)
  | .cbbuild => .cbbuild
  | .romrd => .romrd (BitVec.ofNat 4 w)
  | .hdist => .hdist (BitVec.ofNat 8 (w / 256)) (BitVec.ofNat 8 w)
  | .argmin => .argmin (unpackDistances w)
  | .dec => .dec (BitVec.ofNat 8 w)

/-- The name under which an entry rejects a value too wide for it (R100, R27). -/
def rejectAt (e : Entry) (v : Nat) : Reject :=
  match e with
  | .enc => .infoOutOfRange v
  | .romrd => .romIndexOutOfRange v
  | .par4 => .operandTooWide .par4 v
  | .par5 => .operandTooWide .par5 v
  | .par6 => .operandTooWide .par6 v
  | .par7 => .operandTooWide .par7 v
  | .gmul => .operandTooWide .gmul v
  | .cbbuild => .operandTooWide .cbbuild v
  | .hdist => .operandTooWide .hdist v
  | .argmin => .operandTooWide .argmin v
  | .dec => .operandTooWide .dec v

/-- The decoder: the operation a request stands for, or why it stands for none. -/
def decode (r : Request) : Except Reject Instr :=
  if r.agent = r.entry.agent then
    if r.word < 2 ^ r.entry.width then .ok (decodeFields r.entry r.word)
    else .error (rejectAt r.entry r.word)
  else .error (.notInvocable r.agent r.entry)

/-- The operand word of an operation (R35, R45). -/
def operandWord : Instr → Nat
  | .par4 info => info.toNat
  | .par5 info => info.toNat
  | .par6 info => info.toNat
  | .par7 info => info.toNat
  | .gmul info => info.toNat
  | .enc info => info.toNat
  | .cbbuild => 0
  | .romrd addr => addr.toNat
  | .hdist a b => 256 * a.toNat + b.toNat
  | .argmin d => packNibbles d.toList
  | .dec received => received.toNat

/-- The encoder: the request that asks for an operation. -/
def encode (i : Instr) : Request := ⟨i.entry.agent, i.entry, operandWord i⟩

/-- The entry a bare word of the opcode table is read at. The table's words select nothing (R45: match and mask
are 0), so the width alone is left to choose by: the entry whose operand word has just that width, and of the
seven entries of 4 bits the encoder's port. DESIGN CHOICE, entry 10 of the log. -/
def tableEntry (nbits : Nat) : Entry :=
  if nbits = 0 then .cbbuild
  else if nbits ≤ 4 then .enc
  else if nbits ≤ 8 then .dec
  else if nbits ≤ 16 then .hdist
  else .argmin

/-- The request a bare word of the opcode table is read as, made by the agent that can invoke its operation. -/
def tableRequest (nbits w : Nat) : Request := ⟨(tableEntry nbits).agent, tableEntry nbits, w⟩

/-- The operation the decoder reads from an operand word of the opcode table that is nbits wide. -/
def decodeTableWord (nbits w : Nat) : Option Instr :=
  match decode (tableRequest nbits w) with
  | .ok i => some i
  | .error _ => none

end Sys2Proof
end

