-- ==== Sys2Proof/Machine/Operands.lean ====
section
/-! DEFINITION. Operand assembly (30_encoding.md R35 to R37): putting a codeword together, taking its information
field, and the indices of the codebook. -/

namespace Sys2Proof.Machine

/-- Assembly of a codeword: p7 p6 p5 p4 from bit 7 down, then the information word unchanged (R36, R37). -/
def assembleCodeword (p7 p6 p5 p4 : Bit) (info : Info4) : Cw8 :=
  p7 ++ p6 ++ p5 ++ p4 ++ info

/-- The information field of a word: its bits 3 to 0 (R37). -/
def infoField (c : Cw8) : Info4 := c.extractLsb' 0 4

/-- The indices of the codebook after the first, ascending (R84). -/
def laterIndices : List Addr4 := [1, 2, 3, 4, 5, 6, 7, 8, 9, 10, 11, 12, 13, 14, 15]

/-- All 16 indices of the codebook, ascending (R20, R65). -/
def indices : List Addr4 := 0 :: laterIndices

end Sys2Proof.Machine
end

