-- ==== Sys2Proof/Machine/DecoderLogic.lean ====
section
/-! DEFINITION. The functions of module hamming_decoder (42_decoder.md): the distance calculator, the argmin
selector and the decoder, for any codebook (R87). -/

namespace Sys2Proof.Machine

/-- How many of the 8 bits of a word are 1 (R5). -/
def popcount8 (w : BitVec 8) : Nat :=
  w[0].toNat + w[1].toNat + w[2].toNat + w[3].toNat + w[4].toNat + w[5].toNat + w[6].toNat + w[7].toNat

/-- The Hamming distance of two words, in 4 bits (R80). -/
def hdist (a b : BitVec 8) : Dist4 := BitVec.ofNat 4 (popcount8 (a ^^^ b))

/-- The 16 distances of a received word, one a codebook entry (R82). -/
def distances (cb : Addr4 → Cw8) (r : Rx8) : Addr4 → Dist4 := fun i => hdist r (cb i)

/-- One stage of the selector: the later index only if its distance is strictly smaller (R84). -/
def closer (d : Addr4 → Dist4) (best i : Addr4) : Addr4 := if d i < d best then i else best

/-- The index of the first minimum of 16 distances: the ascending scan that keeps the first strict improvement
(R84). The scan is notation for one fixed formula, not a sequencer (R12, C9). -/
def argmin (d : Addr4 → Dist4) : Addr4 := laterIndices.foldl (closer d) 0

/-- The decoder for any codebook: the low 4 bits of the first of its nearest entries (R86, R87, C7). -/
def decodeWith (cb : Addr4 → Cw8) (r : Rx8) : Info4 := infoField (cb (argmin (distances cb r)))

end Sys2Proof.Machine
end

