-- ==== Sys2Proof/Machine/EncoderLogic.lean ====
section
/-! DEFINITION. The functions of module hamming_encoder (40_encoder.md): four XOR trees, the generator-matrix
product and the encoder. They take 4-bit words, so no value is ever cut to fit (R61, R101). -/

namespace Sys2Proof.Machine

/-- Parity bit 4 (R51). -/
def par4 (info : Info4) : Bit := BitVec.ofBool (info[0] ^^ info[1])

/-- Parity bit 5 (R52). -/
def par5 (info : Info4) : Bit := BitVec.ofBool (info[0] ^^ info[2])

/-- Parity bit 6 (R53). -/
def par6 (info : Info4) : Bit := BitVec.ofBool (info[1] ^^ info[2] ^^ info[3])

/-- Parity bit 7, of the information bits only (R54, C2). -/
def par7 (info : Info4) : Bit := BitVec.ofBool (info[0] ^^ info[1] ^^ info[2] ^^ info[3])

/-- The row if its information bit is set, and nothing otherwise. -/
def selectRow (b : Bool) (row : Cw8) : Cw8 := if b then row else 0x00

/-- The generator-matrix product: the rows that the set bits of the information word select, added over GF(2)
(R55). -/
def gmul (info : Info4) : Cw8 :=
  selectRow info[0] 0xB1 ^^^ selectRow info[1] 0xD2 ^^^ selectRow info[2] 0xE4 ^^^ selectRow info[3] 0xC8

/-- The encoder: the codeword of an information word (R56). -/
def enc (info : Info4) : Cw8 :=
  assembleCodeword (par7 info) (par6 info) (par5 info) (par4 info) info

end Sys2Proof.Machine
end

