-- ==== Sys2Proof/Machine/Memory.lean ====
section
/-! DEFINITION. The codebook ROM (10_state.md R10, 20_memory.md, 41_codebook_rom.md R65): the list that holds its
words, its construction by CBBUILD, and the ROM as it is once built, which nothing can write. -/

namespace Sys2Proof.Machine

/-- The codebook ROM as the list of the words that differ from its elaborated content (R66), in rising order of
index. An index that is not listed holds its codeword. -/
abbrev Memory := List Host.Cell

/-- What an index that is not listed holds: the codeword of the index (R65, R66; entry 2). -/
def romContent (a : Addr4) : Cw8 := enc a

/-- The first word listed for an index. -/
def Memory.find (a : Nat) : Memory → Option (BitVec 8)
  | [] => none
  | c :: m => if c.1 = a then some c.2 else Memory.find a m

/-- MemRead(a, 1): the whole word at an index (R22). The 4-bit index cannot leave the ROM (R21, R27). -/
def Memory.read (m : Memory) (a : Addr4) : Cw8 := (Memory.find a.toNat m).getD (romContent a)

/-- A cell put before the first one of a higher index. -/
def Memory.insert (c : Host.Cell) : Memory → Memory
  | [] => [c]
  | x :: m => if c.1 < x.1 then c :: x :: m else x :: Memory.insert c m

/-- The list without what it says of an index. -/
def Memory.erase (a : Nat) (m : Memory) : Memory := m.filter (fun c => c.1 != a)

/-- Storing a word at an index, in canonical form. Only the construction of the ROM does it (R24, R65). -/
def Memory.write (m : Memory) (a : Addr4) (w : Cw8) : Memory :=
  if w = romContent a then Memory.erase a.toNat m
  else Memory.insert (a.toNat, w) (Memory.erase a.toNat m)

/-- The list is in canonical form from an index on: indices strictly rising and below 16, and no word listed that
its index holds anyway. -/
def Memory.wfFrom (lo : Nat) : Memory → Bool
  | [] => true
  | c :: m =>
    decide (lo ≤ c.1) && decide (c.1 < 16) && (c.2 != romContent (BitVec.ofNat 4 c.1)) && Memory.wfFrom (c.1 + 1) m

/-- The list is in canonical form. -/
def Memory.wf (m : Memory) : Bool := Memory.wfFrom 0 m

/-- CBBUILD's loop, over whatever stood there: ROM[i] = ENC(i) for i = 0 to 15, ascending (R65). -/
def Memory.build (m : Memory) : Memory := indices.foldl (fun m i => m.write i (enc i)) m

/-- Every index holds its codeword (R65, R66). -/
def Memory.holdsCodebook (m : Memory) : Bool := indices.all (fun a => m.read a == enc a)

/-- The built ROM. It carries the proof that every index holds its codeword, so there is no other value of the type:
the ROM never changes by construction (R10, R24), and no operation can read an unbuilt table (R29). -/
structure Rom where
  /-- The list that holds the words. -/
  cells : Memory
  /-- The list is in canonical form. -/
  canonical : cells.wf = true
  /-- Every index holds its codeword. -/
  holdsCodebook : cells.holdsCodebook = true
deriving DecidableEq, Repr

/-- The ROM that elaboration leaves: CBBUILD's loop, run once, before there is a state (R19, R65, D5). -/
def Rom.elaborate : Rom where
  cells := Memory.build []
  canonical := by decide +kernel
  holdsCodebook := by decide +kernel

/-- MemRead(a, 1) = ROM[a] (R22). -/
def Rom.read (r : Rom) (a : Addr4) : Cw8 := r.cells.read a

end Sys2Proof.Machine
end

