-- ==== Sys2Proof/Machine/State.lean ====
section
/-! DEFINITION. The state of the machine (10_state.md R10 to R17), the reasons a step can stop, and the state
after reset. -/

namespace Sys2Proof.Machine

/-- Every value the machine holds. Only rom is architectural state (R10). The ports are functions of the inputs
(R16), kept here so that a host can read them after a step. The remaining fields are the model's own. -/
structure State where
  /-- The codebook ROM, built and read-only (R10). -/
  rom : Rom
  /-- The encoder's input port (R16). -/
  info_i : Info4
  /-- The encoder's output port (R16). -/
  codeword_o : Cw8
  /-- The ROM's address port (R16). -/
  addr_i : Addr4
  /-- The ROM's data port (R16). -/
  data_o : Cw8
  /-- The decoder's input port (R16). -/
  received_i : Rx8
  /-- The decoder's output port (R16). -/
  info_o : Info4
  /-- The result of the last PAR4 that was run on its own (R51; entry 6). -/
  p4 : Bit
  /-- The result of the last PAR5 that was run on its own (R52; entry 6). -/
  p5 : Bit
  /-- The result of the last PAR6 that was run on its own (R53; entry 6). -/
  p6 : Bit
  /-- The result of the last PAR7 that was run on its own (R54; entry 6). -/
  p7 : Bit
  /-- The result of the last GMUL that was run on its own (R55; entry 6). -/
  product : Cw8
  /-- The result of the last HDIST that was run on its own (R80; entry 6). -/
  dist : Dist4
  /-- The result of the last ARGMIN that was run on its own (R84; entry 6). -/
  sel : Addr4
  /-- What is asked for, oldest first: by the host at a port (R112; entry 7), or by the hardware (entries 3, 6). -/
  pending : List Request
deriving DecidableEq, Repr

/-- The machine's faults: none. The spec's one misuse class is a refusal (R105, D7), and nothing else faults
(R102). -/
inductive Fault where
deriving DecidableEq, Repr

/-- Why a step gives no result. -/
inductive Refusal where
  /-- Raised by an arm of exec for an operation that has no meaning yet; no arm raises it. Safe. -/
  | notModelled (mnemonic : String)
  /-- Raised when an information word above 15 is offered to ENC: the spec's InfoOutOfRange (R100). Safe: the
  operation has no result. -/
  | infoOutOfRange (v : Nat)
  /-- Raised when a ROM index above 15 is offered to ROMRD (R27). Safe: the operation has no result. -/
  | romIndexOutOfRange (v : Nat)
  /-- Raised when a value wider than the operand word of any other entry is offered there (entry 8). Safe: no
  port can carry such a value. -/
  | operandTooWide (entry : Entry) (v : Nat)
  /-- Raised when an operation is asked for by one that cannot invoke it: the host reaches the ports alone, and cannot
  build the codebook (R40, R112, D5; entry 15). Safe: the operation has no result. -/
  | notInvocable (agent : Agent) (entry : Entry)
deriving DecidableEq, Repr

/-- The machine after reset, and before it (R17, R120). The ROM is the one that elaboration built. No input is driven,
which the model reads as 0 (DESIGN CHOICE, entry 5), and each output is its function of that (R16): ENC(0), ROM[0]
and DEC(0). The fields of the model's own are 0 (entry 6), and nothing is asked for (entry 7). -/
def State.reset : State where
  rom := Rom.elaborate
  info_i := 0
  codeword_o := 0x00
  addr_i := 0
  data_o := 0x00
  received_i := 0x00
  info_o := 0
  p4 := 0
  p5 := 0
  p6 := 0
  p7 := 0
  product := 0x00
  dist := 0
  sel := 0
  pending := []

end Sys2Proof.Machine
end

