-- ==== Sys2Proof/Machine/Ops.lean ====
section
/-! DEFINITION. The named operations over the ports, the results and the requests. None of them writes the ROM
(20_memory.md R24). There is no exception to take or to return from (60_exceptions.md R105, R106): a refused operation
changes nothing. -/

namespace Sys2Proof.Machine

/-- The constant bus cb[0..15] from the ROM to the decoder (R67, D6). -/
def State.cb (s : State) : Addr4 → Cw8 := s.rom.read

/-- The state with a value on the encoder's input port and one on its output port. -/
def State.withEncoderPort (s : State) (i : Info4) (o : Cw8) : State := { s with info_i := i, codeword_o := o }

/-- The state with a value on the ROM's address port and one on its data port. -/
def State.withRomPort (s : State) (i : Addr4) (o : Cw8) : State := { s with addr_i := i, data_o := o }

/-- The state with a value on the decoder's input port and one on its output port. -/
def State.withDecoderPort (s : State) (i : Rx8) (o : Info4) : State := { s with received_i := i, info_o := o }

/-- The state with a result of PAR4. -/
def State.withP4 (s : State) (v : Bit) : State := { s with p4 := v }

/-- The state with a result of PAR5. -/
def State.withP5 (s : State) (v : Bit) : State := { s with p5 := v }

/-- The state with a result of PAR6. -/
def State.withP6 (s : State) (v : Bit) : State := { s with p6 := v }

/-- The state with a result of PAR7. -/
def State.withP7 (s : State) (v : Bit) : State := { s with p7 := v }

/-- The state with a result of GMUL. -/
def State.withProduct (s : State) (v : Cw8) : State := { s with product := v }

/-- The state with a result of HDIST. -/
def State.withDist (s : State) (v : Dist4) : State := { s with dist := v }

/-- The state with a result of ARGMIN. -/
def State.withSel (s : State) (v : Addr4) : State := { s with sel := v }

/-- The state with other requests. -/
def State.withPending (s : State) (q : List Request) : State := { s with pending := q }

/-- The host applies an information word to info_i; codeword_o becomes its codeword (R16, R56). -/
def State.driveEncoder (s : State) (info : Info4) : State := s.withEncoderPort info (enc info)

/-- The host applies an index to addr_i; data_o becomes the word at it (R16, R68). -/
def State.driveRom (s : State) (addr : Addr4) : State := s.withRomPort addr (s.rom.read addr)

/-- The host applies a received word to received_i; info_o becomes what the decoder makes of it with the ROM's
16 words (R16, R86). -/
def State.driveDecoder (s : State) (r : Rx8) : State := s.withDecoderPort r (decodeWith s.cb r)

/-- The oldest request, and the state without it. -/
def State.take (s : State) : Option (Request × State) :=
  match s.pending with
  | [] => none
  | r :: rest => some (r, s.withPending rest)

/-- The state in which a request is the next one. -/
def State.ask (s : State) (r : Request) : State := s.withPending (r :: s.pending)

/-- The refusal by which a step stops on what is no operation (R105: nothing is changed, nothing is
trapped). -/
def refusalOf : Reject → Refusal
  | .infoOutOfRange v => .infoOutOfRange v
  | .romIndexOutOfRange v => .romIndexOutOfRange v
  | .operandTooWide e v => .operandTooWide e v
  | .notInvocable a e => .notInvocable a e

end Sys2Proof.Machine
end

