-- ==== Sys2Proof/Machine/CodebookRom.lean ====
section
/-! DEFINITION. The operations of module hamming_codebook_rom (41_codebook_rom.md). -/

namespace Sys2Proof.Machine

/-- CBBUILD (R65). Its loop is Memory.build, which elaboration runs once, before there is a state, to leave
Rom.elaborate. Every state therefore holds what it builds; there is no second construction (R19, D5) and no store at
run time (R24), so the operation finds its work done and writes nothing. Only the hardware can invoke it (R112); entry
3 of the log. -/
def execCbbuild (s : State) : Host.Outcome State Fault Refusal := .next s

/-- ROMRD (R68). -/
def execRomrd (addr : Addr4) (s : State) : Host.Outcome State Fault Refusal := .next (s.driveRom addr)

end Sys2Proof.Machine
end

