-- ==== Sys2Proof/Machine/Decoder.lean ====
section
/-! DEFINITION. The operations of module hamming_decoder (42_decoder.md): each writes its result and nothing else
(10_state.md R18), and only DEC reads the ROM (20_memory.md R34). -/

namespace Sys2Proof.Machine

/-- HDIST (R80). -/
def execHdist (a : Rx8) (b : Cw8) (s : State) : Host.Outcome State Fault Refusal := .next (s.withDist (hdist a b))

/-- ARGMIN (R84). On values 9 to 15, which are no distances, the rule's unsigned comparison is taken as it stands;
DEDUCED, entry 12 of the log. -/
def execArgmin (d : Vector Dist4 16) (s : State) : Host.Outcome State Fault Refusal :=
  .next (s.withSel (argmin (fun i => d.get i.toFin)))

/-- DEC (R86). -/
def execDec (received : Rx8) (s : State) : Host.Outcome State Fault Refusal := .next (s.driveDecoder received)

end Sys2Proof.Machine
end

