-- ==== Sys2Proof/Machine/Encoder.lean ====
section
/-! DEFINITION. The operations of module hamming_encoder (40_encoder.md): each writes its result and nothing else
(10_state.md R18), and none reads the ROM (20_memory.md R34). -/

namespace Sys2Proof.Machine

/-- PAR4 (R51). -/
def execPar4 (info : Info4) (s : State) : Host.Outcome State Fault Refusal := .next (s.withP4 (par4 info))

/-- PAR5 (R52). -/
def execPar5 (info : Info4) (s : State) : Host.Outcome State Fault Refusal := .next (s.withP5 (par5 info))

/-- PAR6 (R53). -/
def execPar6 (info : Info4) (s : State) : Host.Outcome State Fault Refusal := .next (s.withP6 (par6 info))

/-- PAR7 (R54). -/
def execPar7 (info : Info4) (s : State) : Host.Outcome State Fault Refusal := .next (s.withP7 (par7 info))

/-- GMUL (R55). -/
def execGmul (info : Info4) (s : State) : Host.Outcome State Fault Refusal := .next (s.withProduct (gmul info))

/-- ENC (R56). -/
def execEnc (info : Info4) (s : State) : Host.Outcome State Fault Refusal := .next (s.driveEncoder info)

end Sys2Proof.Machine
end

