-- ==== Sys2Proof/Machine/Dispatch.lean ====
section
/-! DEFINITION. The meaning of each operation, one arm a constructor. -/

namespace Sys2Proof.Machine

def exec (i : Instr) (s : State) : Host.Outcome State Fault Refusal :=
  match i with
  | .par4 info => Sys2Proof.Machine.execPar4 info s
  | .par5 info => Sys2Proof.Machine.execPar5 info s
  | .par6 info => Sys2Proof.Machine.execPar6 info s
  | .par7 info => Sys2Proof.Machine.execPar7 info s
  | .gmul info => Sys2Proof.Machine.execGmul info s
  | .enc info => Sys2Proof.Machine.execEnc info s
  | .cbbuild => Sys2Proof.Machine.execCbbuild s
  | .romrd addr => Sys2Proof.Machine.execRomrd addr s
  | .hdist a b => Sys2Proof.Machine.execHdist a b s
  | .argmin d => Sys2Proof.Machine.execArgmin d s
  | .dec received => Sys2Proof.Machine.execDec received s

end Sys2Proof.Machine
end

