-- ==== Sys2Proof/Machine/Step.lean ====
section
/-! DEFINITION. One step: the oldest operation that is asked for, from its operand word to its result (D3). -/

namespace Sys2Proof.Machine

/-- One step. With nothing asked for, nothing changes (R15, R128). A request whose value is no operand is refused
(R100, R27), and so is one by an agent that cannot invoke the operation (R112); any other runs as its operation. -/
def step (s : State) : Host.Outcome State Fault Refusal :=
  match s.take with
  | none => .next s
  | some (r, s') =>
    match decode r with
    | .ok i => exec i s'
    | .error e => .refused (refusalOf e)

/-- The state in which the next request is the opcode-table word w of nbits bits. The core fetches nothing (R12): the
word is presented, here by asking for it first. Entry 10 of the log. -/
def State.withFetchWord (s : State) (nbits w : Nat) : State := s.ask (tableRequest nbits w)

end Sys2Proof.Machine
end

