-- ==== Sys2Proof/Safety.lean ====
section
/-! DEFINITION. The terms in which claims about runs are made: what stays true of every state, which words of the
ROM an operation reads, where its result stands, and which requests are no misuse. -/

namespace Sys2Proof

/-- The indices of the ROM words an operation reads for its result (R34): ROMRD one, DEC all, the others none. -/
def Instr.romReads : Instr → List Addr4
  | .par4 _ => []
  | .par5 _ => []
  | .par6 _ => []
  | .par7 _ => []
  | .gmul _ => []
  | .enc _ => []
  | .cbbuild => []
  | .romrd addr => [addr]
  | .hdist _ _ => []
  | .argmin _ => []
  | .dec _ => Machine.indices

/-- The value of a request fits the operand word of its entry (R41). -/
def Request.fits (r : Request) : Prop := r.word < 2 ^ r.entry.width

/-- A request that is no misuse: its agent can invoke the operation (R40, R112), and its value fits. -/
def Request.legal (r : Request) : Prop := r.agent = r.entry.agent ∧ r.fits

end Sys2Proof

namespace Sys2Proof.Machine

/-- Every word of the ROM is the codeword of its index (R10, R65, R66). It holds of every state, by the type of the
ROM: State.romBuilt. -/
def State.RomBuilt (s : State) : Prop := ∀ a : Addr4, s.rom.read a = enc a

/-- Every output port is its module's function of the input port and of the ROM, and of nothing else (R16). -/
structure State.Settled (s : State) : Prop where
  encoder : s.codeword_o = enc s.info_i
  rom : s.data_o = s.rom.read s.addr_i
  decoder : s.info_o = decodeWith s.cb s.received_i

/-- What every step keeps: the ROM is listed in canonical form and is built, the ports are settled, and the
distance is a distance (R10, R16, R35). -/
structure State.Inv (s : State) : Prop where
  canonical : s.rom.cells.wf = true
  built : s.RomBuilt
  settled : s.Settled
  distance : s.dist.toNat ≤ 8

/-- The result of an operation, in the format R40 gives it. -/
inductive Result where
  /-- The value of a parity bit. -/
  | bit (b : Bit)
  /-- The value of a codeword. -/
  | codeword (c : Cw8)
  /-- The value of a distance. -/
  | distance (d : Dist4)
  /-- The value of an index or of an information word. -/
  | nibble (n : BitVec 4)
  /-- The 16 words of the ROM. -/
  | words (l : List Cw8)
deriving DecidableEq, Repr

/-- Where the result of an operation at an entry stands (R40). -/
def State.resultAt (s : State) : Entry → Result
  | .par4 => .bit s.p4
  | .par5 => .bit s.p5
  | .par6 => .bit s.p6
  | .par7 => .bit s.p7
  | .gmul => .codeword s.product
  | .enc => .codeword s.codeword_o
  | .cbbuild => .words (indices.map s.rom.read)
  | .romrd => .codeword s.data_o
  | .hdist => .distance s.dist
  | .argmin => .nibble s.sel
  | .dec => .nibble s.info_o

/-- The result of an operation as a function of its operands and of the 16 words of a codebook, which only ROMRD and
DEC look at (R15, R34, R87). -/
def resultFrom (cb : Addr4 → Cw8) : Instr → Result
  | .par4 info => .bit (par4 info)
  | .par5 info => .bit (par5 info)
  | .par6 info => .bit (par6 info)
  | .par7 info => .bit (par7 info)
  | .gmul info => .codeword (gmul info)
  | .enc info => .codeword (enc info)
  | .cbbuild => .words (indices.map enc)
  | .romrd addr => .codeword (cb addr)
  | .hdist a b => .distance (hdist a b)
  | .argmin d => .nibble (argmin fun i => d.get i.toFin)
  | .dec received => .nibble (decodeWith cb received)

/-- One operation after another, stopping where one stops. -/
def thenExec (o : Host.Outcome State Fault Refusal) (i : Instr) : Host.Outcome State Fault Refusal :=
  match o with
  | .next t => exec i t
  | .fault e => .fault e
  | .refused e => .refused e

end Sys2Proof.Machine
end

