-- ==== Sys2Proof/Certificates/Slice0/Obligations.lean ====
section
/-! DEFINITION. The statements for the provers, from the numbered rules of spec/. Each docstring names the rule it
formalises. -/

open Sys2Proof Sys2Proof.Machine

/-! ### The encoder -/

/-- R51: PAR4 gives info[0] xor info[1], which is 1 for the eight information words the rule lists and is bit 4 of
the codeword. It writes nothing else, so no flag and no state. -/
def Obligations.Par4XorsBits01 : Prop :=
  ∀ (info : Info4) (s : State),
    exec (.par4 info) s = .next { s with p4 := BitVec.ofBool (info[0] ^^ info[1]) } ∧
    ((info[0] ^^ info[1]) = true ↔ info ∈ ([1, 2, 5, 6, 9, 10, 13, 14] : List Info4)) ∧
    (enc info)[4] = (info[0] ^^ info[1])

/-- R52: PAR5 gives info[0] xor info[2], which is 1 for the eight information words the rule lists and is bit 5 of
the codeword. It writes nothing else. -/
def Obligations.Par5XorsBits02 : Prop :=
  ∀ (info : Info4) (s : State),
    exec (.par5 info) s = .next { s with p5 := BitVec.ofBool (info[0] ^^ info[2]) } ∧
    ((info[0] ^^ info[2]) = true ↔ info ∈ ([1, 3, 4, 6, 9, 11, 12, 14] : List Info4)) ∧
    (enc info)[5] = (info[0] ^^ info[2])

/-- R53: PAR6 gives info[1] xor info[2] xor info[3], which is 1 for the eight information words the rule lists and
is bit 6 of the codeword. It writes nothing else. -/
def Obligations.Par6XorsBits123 : Prop :=
  ∀ (info : Info4) (s : State),
    exec (.par6 info) s = .next { s with p6 := BitVec.ofBool (info[1] ^^ info[2] ^^ info[3]) } ∧
    ((info[1] ^^ info[2] ^^ info[3]) = true ↔ info ∈ ([2, 3, 4, 5, 8, 9, 14, 15] : List Info4)) ∧
    (enc info)[6] = (info[1] ^^ info[2] ^^ info[3])

/-- R54: PAR7 gives the xor of the four information bits, their weight modulo 2, which is 1 for the eight
information words the rule lists and is bit 7 of the codeword. It writes nothing else. -/
def Obligations.Par7IsInfoParity : Prop :=
  ∀ (info : Info4) (s : State),
    exec (.par7 info) s = .next { s with p7 := BitVec.ofBool (info[0] ^^ info[1] ^^ info[2] ^^ info[3]) } ∧
    (info[0] ^^ info[1] ^^ info[2] ^^ info[3]) =
      ((info[0].toNat + info[1].toNat + info[2].toNat + info[3].toNat) % 2 == 1) ∧
    ((info[0] ^^ info[1] ^^ info[2] ^^ info[3]) = true ↔
      info ∈ ([1, 2, 4, 7, 8, 11, 13, 14] : List Info4)) ∧
    (enc info)[7] = (info[0] ^^ info[1] ^^ info[2] ^^ info[3])

/-- Row k of the generator matrix as R55 writes it out, bit 7 first. -/
def Sys2Proof.generatorRow : Fin 4 → Cw8
  | 0 => 0b10110001
  | 1 => 0b11010010
  | 2 => 0b11100100
  | 3 => 0b11001000

/-- R55: GMUL gives, in each column j, the sum over GF(2) of the matrix entries of that column which the
information bits select. A single bit gives its row, none gives 0x00, and 0b0101 gives 0x55. It writes nothing
else. -/
def Obligations.GmulIsMatrixProduct : Prop :=
  (∀ (info : Info4) (s : State), ∃ c : Cw8, exec (.gmul info) s = .next { s with product := c } ∧
    ∀ j : Fin 8, c.getLsbD j =
      ((info[0] && (generatorRow 0).getLsbD j) ^^ (info[1] && (generatorRow 1).getLsbD j) ^^
        (info[2] && (generatorRow 2).getLsbD j) ^^ (info[3] && (generatorRow 3).getLsbD j))) ∧
  (∀ s : State, exec (.gmul 0) s = .next { s with product := 0x00 }) ∧
  (∀ (k : Fin 4) (s : State), exec (.gmul (1#4 <<< k.val)) s = .next { s with product := generatorRow k }) ∧
  (∀ s : State, exec (.gmul 0b0101) s = .next { s with product := 0x55 })

/-- R56: ENC puts p7, p6, p5, p4 and the information word together, bit 7 first, which is the generator-matrix
product for every information word. It answers at its port and writes nothing else. -/
def Obligations.EncAssemblesCodeword : Prop :=
  (∀ (info : Info4) (s : State),
    exec (.enc info) s = .next { s with
      info_i := info
      codeword_o :=
        (BitVec.ofBool (info[0] ^^ info[1] ^^ info[2] ^^ info[3]) ++
          BitVec.ofBool (info[1] ^^ info[2] ^^ info[3]) ++
          BitVec.ofBool (info[0] ^^ info[2]) ++ BitVec.ofBool (info[0] ^^ info[1]) ++ info : BitVec 8) }) ∧
  (∀ (info : Info4) (s : State), ∃ t u, exec (.enc info) s = .next t ∧ exec (.gmul info) s = .next u ∧
    t.codeword_o = u.product) ∧
  (∀ s : State, exec (.enc 0) s = .next { s with info_i := 0, codeword_o := 0x00 }) ∧
  (∀ s : State, exec (.enc 15) s = .next { s with info_i := 15, codeword_o := 0x4F }) ∧
  (∀ s : State, exec (.enc 0b0101) s = .next { s with info_i := 0b0101, codeword_o := 0x55 })

/-- R57: the low 4 bits of a codeword are its information word, so its value modulo 16 is too, and no two
information words have one codeword. -/
def Obligations.EncIsSystematic : Prop :=
  ∀ (info : Info4) (s : State), ∃ t, exec (.enc info) s = .next t ∧
    t.codeword_o.extractLsb' 0 4 = info ∧ t.codeword_o.toNat % 16 = info.toNat ∧
    ∀ (info' : Info4) (t' : State), exec (.enc info') s = .next t' → t'.codeword_o = t.codeword_o → info' = info

/-- R58: each of the four high bits of ENC's codeword is the result of its own parity operation. -/
def Obligations.ParityEquationsHoldSeparately : Prop :=
  ∀ (info : Info4) (s : State), ∃ t t4 t5 t6 t7,
    exec (.enc info) s = .next t ∧ exec (.par4 info) s = .next t4 ∧ exec (.par5 info) s = .next t5 ∧
    exec (.par6 info) s = .next t6 ∧ exec (.par7 info) s = .next t7 ∧
    t.codeword_o.extractLsb' 4 1 = t4.p4 ∧ t.codeword_o.extractLsb' 5 1 = t5.p5 ∧
    t.codeword_o.extractLsb' 6 1 = t6.p6 ∧ t.codeword_o.extractLsb' 7 1 = t7.p7

/-- R60: ENC is linear, so the codewords are closed under xor, and the distance of two codewords is the weight of
the codeword of their difference. -/
def Obligations.EncIsLinear : Prop :=
  (∀ (a b : Info4) (s : State), ∃ ta tb tc td,
    exec (.enc a) s = .next ta ∧ exec (.enc b) s = .next tb ∧ exec (.enc (a ^^^ b)) s = .next tc ∧
    exec (.hdist ta.codeword_o tb.codeword_o) s = .next td ∧
    tc.codeword_o = ta.codeword_o ^^^ tb.codeword_o ∧ td.dist.toNat = popcount8 tc.codeword_o) ∧
  (∀ s : State, ∃ t, exec (.enc 0) s = .next t ∧ t.codeword_o = 0x00)

/-! ### The codebook ROM -/

/-- R68: ROMRD puts the word at the index on the data port and writes nothing else. It gives 0x00 at 0, 0x4F at 15
and 0x79 at 9. -/
def Obligations.RomrdReadsTheWord : Prop :=
  (∀ (addr : Addr4) (s : State),
    exec (.romrd addr) s = .next { s with addr_i := addr, data_o := s.rom.read addr }) ∧
  (∀ s : State, s.rom.read 0 = 0x00 ∧ s.rom.read 15 = 0x4F ∧ s.rom.read 9 = 0x79)

/-- CBBUILD answers in every state, and every word of the ROM is then the codeword of its index. The ROM of every state
is the one that its loop built at elaboration, so it has nothing left to store. Derived from R65 and R19; that it has a
step at all is the model's choice (entry 3). -/
def Obligations.CbbuildStoresEveryCodeword : Prop :=
  ∀ s : State, ∃ t, exec .cbbuild s = .next t ∧ (∀ a : Addr4, t.rom.read a = enc a) ∧ t.rom.read 14 = 0xFE ∧
    s.rom = Rom.elaborate

/-- Building the codebook again gives bit-identical results: CBBUILD changes nothing at all, in any state. Derived from
R72, R19 and R24; that it has a step at all is the model's choice (entry 3). -/
def Obligations.RebuildingChangesNothing : Prop :=
  ∀ s : State, exec .cbbuild s = .next s

/-- R66: the 16 words of the ROM of every state, their parity bits and their weights, as the rule's table has them. -/
def Obligations.BuiltRomHoldsTheTable : Prop :=
  ∀ s : State,
    indices.map s.rom.read = [0x00, 0xB1, 0xD2, 0x63, 0xE4, 0x55, 0x36, 0x87,
      0xC8, 0x79, 0x1A, 0xAB, 0x2C, 0x9D, 0xFE, 0x4F] ∧
    indices.map (fun a => (s.rom.read a).extractLsb' 4 4) = [0b0000, 0b1011, 0b1101, 0b0110, 0b1110, 0b0101,
      0b0011, 0b1000, 0b1100, 0b0111, 0b0001, 0b1010, 0b0010, 0b1001, 0b1111, 0b0100] ∧
    indices.map (fun a => popcount8 (s.rom.read a)) = [0, 4, 4, 4, 4, 4, 4, 4, 3, 5, 3, 5, 3, 5, 7, 5]

/-- R69: ROMRD gives what ENC gives, and the low 4 bits of a word are its index. -/
def Obligations.RomrdAgreesWithEnc : Prop :=
  ∀ (a : Addr4) (s : State), ∃ t u, exec (.romrd a) s = .next t ∧ exec (.enc a) s = .next u ∧
    t.data_o = u.codeword_o ∧ t.data_o.extractLsb' 0 4 = a

/-- R70: the 16 words of the ROM are pairwise different. -/
def Obligations.BuiltRomWordsDiffer : Prop :=
  ∀ (s : State) (a b : Addr4), s.rom.read a = s.rom.read b → a = b

/-- The pairs of different indices, each once. -/
def Sys2Proof.indexPairs : List (Addr4 × Addr4) :=
  indices.flatMap fun a => (indices.filter fun b => decide (a < b)).map fun b => (a, b)

/-- The minimum distance of the code is 3: of the 120 pairs of codewords 24 are at distance 3, 56 at 4, 32 at 5 and
8 at 7. Derived from R71, whose distance matrix it does not list entry by entry. -/
def Obligations.MinimumDistanceIsThree : Prop :=
  (∀ a b : Addr4, a ≠ b → 3 ≤ (hdist (enc a) (enc b)).toNat) ∧ hdist (enc 0) (enc 8) = 3 ∧
  [1, 2, 3, 4, 5, 6, 7, 8].map (fun k => indexPairs.countP fun p => (hdist (enc p.1) (enc p.2)).toNat == k) =
    [0, 0, 24, 56, 32, 0, 8, 0]

/-! ### The decoder -/

/-- R80: HDIST gives the number of bit positions in which its operands differ, and writes nothing else. It is 0 of
equal words alone, symmetric, at most 8, 8 of a word and its complement, and changes by exactly 1 when one bit is
flipped. -/
def Obligations.HdistCountsDifferingBits : Prop :=
  (∀ (a b : BitVec 8) (s : State), ∃ v : Dist4, exec (.hdist a b) s = .next { s with dist := v } ∧
    v.toNat = (List.range 8).countP (fun k => a.getLsbD k != b.getLsbD k)) ∧
  (∀ a b : BitVec 8, (hdist a b = 0 ↔ a = b) ∧ hdist a b = hdist b a ∧ (hdist a b).toNat ≤ 8 ∧
    hdist a (a ^^^ 0xFF) = 8) ∧
  (∀ (a b : BitVec 8) (k : Fin 8),
    (hdist (a ^^^ 1#8 <<< k.val) b).toNat = (hdist a b).toNat + 1 ∨
    (hdist (a ^^^ 1#8 <<< k.val) b).toNat + 1 = (hdist a b).toNat) ∧
  (∀ s : State, exec (.hdist 0xFF 0xFE) s = .next { s with dist := 1 })

/-- ARGMIN gives the least index whose distance is at most every other, and writes nothing else. Derived from R84,
which gives it for distances 0 to 8. For values 9 to 15, which are no distances, that it compares them unsigned is the
model's choice (entry 12). -/
def Obligations.ArgminIsFirstMinimum : Prop :=
  ∀ (d : Vector Dist4 16) (s : State), ∃ i : Addr4, exec (.argmin d) s = .next { s with sel := i } ∧
    (∀ j : Addr4, d.get i.toFin ≤ d.get j.toFin) ∧ (∀ j : Addr4, j < i → d.get i.toFin < d.get j.toFin)

/-- A network of two-way stages, each of which passes one of its two candidates on (R85). -/
inductive Sys2Proof.SelectorTree where
  | entry (i : Addr4)
  | stage (low high : Sys2Proof.SelectorTree)

/-- The codebook entries a network looks at, from its low end up. -/
def Sys2Proof.SelectorTree.entries : Sys2Proof.SelectorTree → List Addr4
  | .entry i => [i]
  | .stage low high => low.entries ++ high.entries

/-- What a network selects: each stage passes on its low candidate unless its high one is strictly nearer (R85). -/
def Sys2Proof.SelectorTree.select (d : Addr4 → Dist4) : Sys2Proof.SelectorTree → Addr4
  | .entry i => i
  | .stage low high => if d (high.select d) < d (low.select d) then high.select d else low.select d

/-- Every network of two-way stages over the 16 entries in order, a chain, a balanced tree or any other tree, selects
what the ascending scan of ARGMIN selects, for all 16-tuples of 4-bit values. Derived from R85, which gives it for
distances 0 to 8. For values 9 to 15, which are no distances, it rests on the model's choice (entry 12). -/
def Obligations.EverySelectorNetworkIsArgmin : Prop :=
  ∀ net : SelectorTree, net.entries = indices → ∀ (d : Vector Dist4 16) (s : State),
    exec (.argmin d) s = .next { s with sel := net.select (fun i => d.get i.toFin) }

/-- R86: DEC gives the low 4 bits of the ROM word that is nearest to the received word, the lowest index winning a
tie, and writes nothing else. The result is the index itself, DEC(0x00) is 0 and DEC(0xFF) is 14. -/
def Obligations.DecSelectsNearestEntry : Prop :=
  (∀ (r : Rx8) (s : State), ∃ i : Addr4,
    exec (.dec r) s = .next { s with received_i := r, info_o := (s.rom.read i).extractLsb' 0 4 } ∧
    (∀ j : Addr4, hdist r (s.rom.read i) ≤ hdist r (s.rom.read j)) ∧
    (∀ j : Addr4, j < i → hdist r (s.rom.read i) < hdist r (s.rom.read j)) ∧
    (s.rom.read i).extractLsb' 0 4 = i) ∧
  (∀ s : State, exec (.dec 0x00) s = .next { s with received_i := 0x00, info_o := 0 } ∧
    exec (.dec 0xFF) s = .next { s with received_i := 0xFF, info_o := 14 })

/-- R87: for any codebook the decoder gives the low 4 bits of the first of its nearest entries, which need not be the
index of the entry; and DEC is that decoder with the ROM for its codebook. -/
def Obligations.DecoderServesAnyCodebook : Prop :=
  (∀ (cb : Addr4 → Cw8) (r : Rx8), ∃ i : Addr4, decodeWith cb r = (cb i).extractLsb' 0 4 ∧
    (∀ j : Addr4, hdist r (cb i) ≤ hdist r (cb j)) ∧ (∀ j : Addr4, j < i → hdist r (cb i) < hdist r (cb j))) ∧
  (∃ (cb : Addr4 → Cw8) (r : Rx8), decodeWith cb r ≠ argmin (distances cb r)) ∧
  (∀ (r : Rx8) (s : State),
    exec (.dec r) s = .next { s with received_i := r, info_o := decodeWith s.rom.read r })

/-- DEC is ARGMIN over the 16 results of HDIST, in the states that run them one by one: the selected word's low 4
bits. Derived from R82 and R86. -/
def Obligations.DecIsArgminOfHdist : Prop :=
  ∀ (r : Rx8) (s : State) (d : Vector Dist4 16),
    (∀ i : Addr4, ∃ t, exec (.hdist r (s.rom.read i)) s = .next t ∧ t.dist = d.get i.toFin) →
    ∃ t u, exec (.argmin d) s = .next t ∧ exec (.dec r) s = .next u ∧
      u.info_o = (s.rom.read t.sel).extractLsb' 0 4

/-- R88: an uncorrupted codeword, from ENC or from ROMRD, is decoded to its information word, in the state the
encoding left. -/
def Obligations.DecodingInvertsEncoding : Prop :=
  ∀ (i : Info4) (s : State), ∃ t u v w,
    exec (.enc i) s = .next t ∧ exec (.dec t.codeword_o) t = .next u ∧ u.info_o = i ∧
    exec (.romrd i) s = .next v ∧ exec (.dec v.data_o) v = .next w ∧ w.info_o = i

/-- R89: a codeword with any one bit flipped is decoded to its information word. -/
def Obligations.SingleBitErrorsAreCorrected : Prop :=
  ∀ (i : Info4) (k : Fin 8) (s : State), ∃ t u,
    exec (.enc i) s = .next t ∧ exec (.dec (t.codeword_o ^^^ 1#8 <<< k.val)) t = .next u ∧ u.info_o = i

/-- All 256 received words. -/
def Sys2Proof.receivedWords : List Rx8 := (List.range 256).map (BitVec.ofNat 8)

/-- How near the nearest codeword is to a word. -/
def Sys2Proof.nearestDistance (r : Rx8) : Nat := (indices.map fun i => popcount8 (r ^^^ enc i)).foldl min 8

/-- How many codewords are nearest to a word. -/
def Sys2Proof.nearestCount (r : Rx8) : Nat :=
  indices.countP fun i => popcount8 (r ^^^ enc i) == nearestDistance r

/-- R74: of the 256 words 16 are codewords, 128 are at distance 1 from one codeword alone, and 112 at distance 2, of
which 16 have one nearest codeword and 96 have three. That is all of them: no word is further off and none has two. -/
def Obligations.CensusOfReceivedWords : Prop :=
  receivedWords.length = 256 ∧
  ([(0, 1), (1, 1), (2, 1), (2, 3)] : List (Nat × Nat)).map
    (fun p => receivedWords.countP fun r => (nearestDistance r, nearestCount r) == p) = [16, 128, 16, 96]

/-- A received word that three codewords are equally near to is decoded to the lowest index, the same in every
state. Derived from R90, of whose 112 words it takes the worked example and two more. -/
def Obligations.TiesGoToTheLowestIndex : Prop :=
  ∀ s : State,
    exec (.dec 0xF0) s = .next { s with received_i := 0xF0, info_o := 1 } ∧
    exec (.dec 0x03) s = .next { s with received_i := 0x03, info_o := 0 } ∧
    exec (.dec 0x7F) s = .next { s with received_i := 0x7F, info_o := 9 }

/-- DEC(0xFF) is 14: the 16 distances are those R93 lists, and the single minimum, 1, is at index 14, whose
codeword is 0xFE. Derived from R93 and R82; what R93 says of the host's printing is out of the core (R6). -/
def Obligations.AllOnesDecodesToFourteen : Prop :=
  ∀ s : State,
    exec (.dec 0xFF) s = .next { s with received_i := 0xFF, info_o := 14 } ∧
    indices.map (distances s.cb 0xFF) = [8, 4, 4, 4, 4, 4, 4, 4, 5, 3, 5, 3, 5, 3, 1, 3] ∧
    s.rom.read 14 = 0xFE

/-- Two flipped bits are not promised to be corrected: the two-bit errors of 95_test_vectors.md section 2.8, with the
words that DEC makes of them: 0 of an error on 0, 1 of the same error word from 1, from 4 and from 2, 0 of one on 8,
and 9 of one on 14. Derived from R73. -/
def Obligations.TwoBitErrorsAreNotPromised : Prop :=
  ∀ s : State,
    ([enc 0 ^^^ 0b00001001, enc 1 ^^^ 0b01000001, enc 4 ^^^ 0b00010100, enc 2 ^^^ 0b00100010, enc 8 ^^^ 0b11000000,
      enc 14 ^^^ 0b10000001].map fun r => exec (.dec r) s) =
    [(0x09, 0), (0xF0, 1), (0xF0, 1), (0xF0, 1), (0x08, 0), (0x7F, 9)].map fun p =>
      .next { s with received_i := p.1, info_o := p.2 }

/-! ### The machine -/

/-- Nothing changes the architectural state, which is the ROM: every operation completes, with the ROM exactly as it
was, and every step that answers leaves it so. Derived from R18, R10 and R24; what else each operation writes is in the
frames below. -/
def Obligations.NoOperationChangesTheRom : Prop :=
  (∀ (i : Instr) (s : State), ∃ t, exec i s = .next t ∧ t.rom = s.rom ∧
    ∀ a : Addr4, t.rom.read a = s.rom.read a) ∧
  (∀ s t : State, step s = .next t → t.rom = s.rom)

/-- Every step keeps the invariant: the ROM is listed in canonical form and holds the codebook, every output port is
its function of its input port and of the ROM, and the distance is 0 to 8. Derived from R10, R16 and R35; that the
ports are fields is the model's choice (entry 4). What it says of the ROM alone holds of every state, by the type of the
ROM (entry 1). -/
def Obligations.EveryStepKeepsTheInvariant : Prop :=
  ∀ s t : State, s.Inv → step s = .next t → t.Inv

/-- Reset leaves the invariant, and nothing asked for. Derived from R17, which gives the ROM and the outputs. The 0 on the
input ports (entry 5), the 0 in dist, which puts it within its bound (entry 6), and the empty list of requests (entry 7)
are the model's choice. -/
def Obligations.ResetMeetsTheInvariant : Prop :=
  State.reset.Inv ∧ State.reset.pending = []

/-- A step at a request whose word decodes runs just that operation, in the state without the request, and the
opcode-table word put before a step is the one it runs. Derived from R38 and D3; the list of requests is the
model's choice (entries 7 and 10). -/
def Obligations.StepRunsTheDecodedOperation : Prop :=
  (∀ (s : State) (r : Request) (rest : List Request) (i : Instr),
    s.pending = r :: rest → decode r = .ok i → step s = exec i { s with pending := rest }) ∧
  (∀ (s : State) (nbits w : Nat) (i : Instr),
    decodeTableWord nbits w = some i → step (s.withFetchWord nbits w) = exec i s)

/-- With nothing asked for, a step changes nothing. Derived from R15 and R128; that there is such a step is the
model's choice (entry 7). -/
def Obligations.IdleStepChangesNothing : Prop :=
  ∀ s : State, s.pending = [] → step s = .next s

/-- R100: a value above 15 offered to ENC is refused as InfoOutOfRange with that value, and gives no codeword. A
value up to 15 is encoded. No other entry raises it. -/
def Obligations.WideInformationWordIsRefused : Prop :=
  (∀ (s : State) (v : Nat), 15 < v → step (s.ask ⟨.host, .enc, v⟩) = .refused (.infoOutOfRange v)) ∧
  (∀ (s : State) (v : Nat), v ≤ 15 → step (s.ask ⟨.host, .enc, v⟩) = exec (.enc (BitVec.ofNat 4 v)) s) ∧
  (∀ (s : State) (v : Nat), step s = .refused (.infoOutOfRange v) →
    ∃ rest, s.pending = ⟨.host, .enc, v⟩ :: rest)

/-- R27: an index above 15 offered to ROMRD is refused, neither wrapped nor answered with a default. An index up to
15 is read. -/
def Obligations.WideRomIndexIsRefused : Prop :=
  (∀ (s : State) (v : Nat), 15 < v → step (s.ask ⟨.host, .romrd, v⟩) = .refused (.romIndexOutOfRange v)) ∧
  (∀ (s : State) (v : Nat), v ≤ 15 → step (s.ask ⟨.host, .romrd, v⟩) = exec (.romrd (BitVec.ofNat 4 v)) s)

/-- The host reaches the three ports, whatever their input, and nothing else: it cannot build the codebook or reach a
sub-block. Derived from R112 and D5; that such a request is refused by name is the model's choice (entry 15). -/
def Obligations.HostReachesThePortsAlone : Prop :=
  (∀ (s : State) (v : Info4), step (s.ask ⟨.host, .enc, v.toNat⟩) = exec (.enc v) s) ∧
  (∀ (s : State) (a : Addr4), step (s.ask ⟨.host, .romrd, a.toNat⟩) = exec (.romrd a) s) ∧
  (∀ (s : State) (r : Rx8), step (s.ask ⟨.host, .dec, r.toNat⟩) = exec (.dec r) s) ∧
  (∀ (s : State) (e : Entry) (w : Nat), e.level ≠ .port →
    step (s.ask ⟨.host, e, w⟩) = .refused (.notInvocable .host e))

/-- Nothing faults, and a step is refused only for a value that does not fit its entry or for an agent that cannot
invoke it: otherwise it gives a next state. Derived from R102, R41 and R112. That a step stops on a value too wide for
an entry other than ENC and ROMRD (entry 8) and on such an agent (entry 15), and that the machine has no fault at all
(entry 11), are the model's choice. -/
def Obligations.OnlyMisuseStopsAStep : Prop :=
  (∀ (s : State) (e : Fault), step s ≠ .fault e) ∧
  (∀ s : State, (∀ r rest, s.pending = r :: rest → r.legal) ↔ ∃ t, step s = .next t)

/-- The request that asks for an operation is read as that operation, with every operand as it was. Derived from
R35 and R45. -/
def Obligations.DecodingInvertsTheOperandWord : Prop :=
  ∀ i : Instr, decode (encode i) = .ok i

/-- A request that is read as an operation is the one that asks for it: no two operand words of an entry stand for
one operation, and no bit is ignored. Derived from R38 and R45. -/
def Obligations.OperandWordsAreUnique : Prop :=
  ∀ (r : Request) (i : Instr), decode r = .ok i → encode i = r

/-- Every value that fits an entry's operand word is a legal operand of the entry for the agent that can invoke it
(derived from R38, R39, R40 and R41), and no other value and no other agent is. That second half is the model's choice
at the nine entries other than ENC and ROMRD, for which the spec names no refusal (entry 8), and for the agents
(entry 15). -/
def Obligations.EveryFittingWordIsLegal : Prop :=
  ∀ r : Request, r.legal ↔ ∃ i : Instr, decode r = .ok i ∧ i.entry = r.entry

/-- Some operand words written out from R35 and R45 are read as the operations they stand for, for the agents of R40. -/
def Obligations.WrittenOutWordsDecode : Prop :=
  decode ⟨.hardware, .par4, 0b0101⟩ = .ok (.par4 5) ∧ decode ⟨.host, .enc, 0b1110⟩ = .ok (.enc 14) ∧
  decode ⟨.hardware, .cbbuild, 0⟩ = .ok .cbbuild ∧ decode ⟨.host, .romrd, 0b1001⟩ = .ok (.romrd 9) ∧
  decode ⟨.hardware, .hdist, 0b1011000111010010⟩ = .ok (.hdist 0xB1 0xD2) ∧
  decode ⟨.hardware, .argmin, 0x3753553355426442⟩ =
    .ok (.argmin #v[2, 4, 4, 6, 2, 4, 5, 5, 3, 3, 5, 5, 3, 5, 7, 3]) ∧
  decode ⟨.host, .dec, 0b11110000⟩ = .ok (.dec 0xF0)

/-- The frame of PAR4, PAR5, PAR6, PAR7, GMUL, HDIST and ARGMIN: the ROM, all six ports, the requests, and every
result but the operation's own are unchanged. Derived from R18. -/
def Obligations.SubBlocksWriteOnlyTheirResult : Prop :=
  ∀ (i : Instr) (s t : State),
    i.entry ∈ ([.par4, .par5, .par6, .par7, .gmul, .hdist, .argmin] : List Entry) → exec i s = .next t →
    t.rom = s.rom ∧ (∀ a : Addr4, t.rom.read a = s.rom.read a) ∧
    t.info_i = s.info_i ∧ t.codeword_o = s.codeword_o ∧ t.addr_i = s.addr_i ∧ t.data_o = s.data_o ∧
    t.received_i = s.received_i ∧ t.info_o = s.info_o ∧ t.pending = s.pending ∧
    (i.entry ≠ .par4 → t.p4 = s.p4) ∧ (i.entry ≠ .par5 → t.p5 = s.p5) ∧ (i.entry ≠ .par6 → t.p6 = s.p6) ∧
    (i.entry ≠ .par7 → t.p7 = s.p7) ∧ (i.entry ≠ .gmul → t.product = s.product) ∧
    (i.entry ≠ .hdist → t.dist = s.dist) ∧ (i.entry ≠ .argmin → t.sel = s.sel)

/-- The frame of ENC, ROMRD and DEC: each writes its own module's two ports and nothing else. Derived from R18 and
R110; that the ports are fields is the model's choice (entry 4). -/
def Obligations.PortOperationsWriteOnlyTheirPorts : Prop :=
  ∀ (i : Instr) (s t : State), i.entry ∈ ([.enc, .romrd, .dec] : List Entry) → exec i s = .next t →
    t.rom = s.rom ∧ (∀ a : Addr4, t.rom.read a = s.rom.read a) ∧
    (i.entry ≠ .enc → t.info_i = s.info_i ∧ t.codeword_o = s.codeword_o) ∧
    (i.entry ≠ .romrd → t.addr_i = s.addr_i ∧ t.data_o = s.data_o) ∧
    (i.entry ≠ .dec → t.received_i = s.received_i ∧ t.info_o = s.info_o) ∧
    t.p4 = s.p4 ∧ t.p5 = s.p5 ∧ t.p6 = s.p6 ∧ t.p7 = s.p7 ∧ t.product = s.product ∧ t.dist = s.dist ∧
    t.sel = s.sel ∧ t.pending = s.pending

/-- The frame of CBBUILD: every port, every result, the requests, the ROM and every word of it are unchanged. Derived
from R18, R24 and R19; entry 3. -/
def Obligations.BuildWritesNothingAtRunTime : Prop :=
  ∀ s t : State, exec .cbbuild s = .next t →
    t.rom = s.rom ∧ (∀ a : Addr4, t.rom.read a = s.rom.read a) ∧
    t.info_i = s.info_i ∧ t.codeword_o = s.codeword_o ∧ t.addr_i = s.addr_i ∧ t.data_o = s.data_o ∧
    t.received_i = s.received_i ∧ t.info_o = s.info_o ∧
    t.p4 = s.p4 ∧ t.p5 = s.p5 ∧ t.p6 = s.p6 ∧ t.p7 = s.p7 ∧ t.product = s.product ∧ t.dist = s.dist ∧
    t.sel = s.sel ∧ t.pending = s.pending

/-- An operation's result is a function of its operands and of the ROM's words, and of nothing else of the state; and of
the words it looks only at those that it reads, ROMRD one, DEC all, the others none, for any codebook in the ROM's
place. Derived from R15, R34 and R87. -/
def Obligations.ResultsDependOnOperandsAndRom : Prop :=
  (∀ (i : Instr) (s : State), ∃ t, exec i s = .next t ∧ t.resultAt i.entry = resultFrom s.rom.read i) ∧
  (∀ (i : Instr) (cb cb' : Addr4 → Cw8), (∀ a ∈ i.romReads, cb a = cb' a) → resultFrom cb i = resultFrom cb' i)

/-- Operations at different entries do not disturb one another: either order of any two leaves the same state.
Derived from R110 and R128. -/
def Obligations.DifferentEntriesCommute : Prop :=
  ∀ (i j : Instr) (s : State), i.entry ≠ j.entry → thenExec (exec i s) j = thenExec (exec j s) i

/-- Whatever operations came before, every one ends, and an operation then gives the result it gives as the first
one after reset. Derived from R15, R121, R128 and R131, which say it of ENC, ROMRD and DEC. That CBBUILD (entry 3) and
the sub-operations (entry 6) are steps of their own, and the list of requests (entry 7), are the model's choice. -/
def Obligations.HistoryDoesNotMatter : Prop :=
  ∀ (before : List Request) (i : Instr) (s : State), (∀ r ∈ before, r.legal) →
    s.pending = before ++ [encode i] →
    ∃ t u : State, Sys2Proof.core.run (before.length + 1) s = .next t ∧ t.pending = [] ∧ t.RomBuilt ∧
      exec i State.reset = .next u ∧ t.resultAt i.entry = u.resultAt i.entry
end

