-- ==== Sys2Proof/Laws/Memory.lean ====
section
/-! SUPPORT. The laws of the ROM's list: what a read finds after a write, that a write keeps the canonical form, and
that the built ROM has one value. -/

namespace Sys2Proof.Machine

/-- A word of the ROM at its own index is read back from what is listed for the index. -/
theorem Memory.read_eq (m : Memory) (a : Addr4) : m.read a = (Memory.find a.toNat m).getD (romContent a) := rfl

/-- An index of which nothing is listed holds its codeword (R66). -/
@[simp] theorem Memory.read_nil (a : Addr4) : Memory.read [] a = enc a := rfl

theorem Memory.find_erase_same (k : Nat) (m : Memory) : Memory.find k (Memory.erase k m) = none := by
  induction m with
  | nil => rfl
  | cons c m ih =>
    by_cases h : c.1 = k
    · simpa [Memory.erase, h] using ih
    · simpa [Memory.erase, h, Memory.find] using ih

theorem Memory.find_erase_ne {j k : Nat} (h : j ≠ k) (m : Memory) :
    Memory.find j (Memory.erase k m) = Memory.find j m := by
  induction m with
  | nil => rfl
  | cons c m ih =>
    by_cases hc : c.1 = k
    · have hj : c.1 ≠ j := fun e => h (e.symm.trans hc)
      simpa [Memory.erase, hc, Memory.find, hj, h.symm] using ih
    · by_cases hj : c.1 = j
      · simp [Memory.erase, Memory.find, hj, h]
      · simpa [Memory.erase, hc, Memory.find, hj] using ih

theorem Memory.find_insert_same (c : Host.Cell) (m : Memory) (h : Memory.find c.1 m = none) :
    Memory.find c.1 (Memory.insert c m) = some c.2 := by
  induction m with
  | nil => simp [Memory.insert, Memory.find]
  | cons x m ih =>
    have hx : x.1 ≠ c.1 := by
      intro e
      simp [Memory.find, e] at h
    have hm : Memory.find c.1 m = none := by simpa [Memory.find, hx] using h
    by_cases hlt : c.1 < x.1
    · simp [Memory.insert, hlt, Memory.find]
    · simpa [Memory.insert, hlt, Memory.find, hx] using ih hm

theorem Memory.find_insert_ne {j : Nat} (c : Host.Cell) (h : c.1 ≠ j) (m : Memory) :
    Memory.find j (Memory.insert c m) = Memory.find j m := by
  induction m with
  | nil => simp [Memory.insert, Memory.find, h]
  | cons x m ih =>
    by_cases hlt : c.1 < x.1
    · simp [Memory.insert, hlt, Memory.find, h]
    · simp [Memory.insert, hlt, Memory.find, ih]

/-- A read of the index just written gives the word written, in every list. -/
@[simp] theorem Memory.read_write_same (m : Memory) (a : Addr4) (w : Cw8) : (m.write a w).read a = w := by
  by_cases h : w = romContent a
  · simp [Memory.read, Memory.write, h, Memory.find_erase_same]
  · have hf := Memory.find_insert_same (a.toNat, w) _ (Memory.find_erase_same a.toNat m)
    simp only [Memory.read, Memory.write, if_neg h]
    rw [hf]
    rfl

/-- A write leaves every other index alone, in every list. -/
theorem Memory.read_write_ne (m : Memory) {a b : Addr4} (w : Cw8) (h : b ≠ a) :
    (m.write a w).read b = m.read b := by
  have hn : a.toNat ≠ b.toNat := fun e => h (BitVec.eq_of_toNat_eq e.symm)
  by_cases hw : w = romContent a
  · simp [Memory.read, Memory.write, hw, Memory.find_erase_ne hn.symm]
  · simp only [Memory.read, Memory.write, if_neg hw]
    rw [Memory.find_insert_ne (a.toNat, w) hn, Memory.find_erase_ne hn.symm]

/-- Canonical from an index on is canonical from any earlier one. -/
theorem Memory.wfFrom_mono {lo hi : Nat} (h : lo ≤ hi) {m : Memory} (hm : Memory.wfFrom hi m = true) :
    Memory.wfFrom lo m = true := by
  cases m with
  | nil => rfl
  | cons c m =>
    simp only [Memory.wfFrom, Bool.and_eq_true, decide_eq_true_eq] at hm ⊢
    exact ⟨⟨⟨by omega, hm.1.1.2⟩, hm.1.2⟩, hm.2⟩

theorem Memory.erase_wfFrom (k lo : Nat) (m : Memory) (h : Memory.wfFrom lo m = true) :
    Memory.wfFrom lo (Memory.erase k m) = true := by
  induction m generalizing lo with
  | nil => rfl
  | cons c m ih =>
    simp only [Memory.wfFrom, Bool.and_eq_true, decide_eq_true_eq] at h
    have hm := ih _ h.2
    by_cases hc : c.1 = k
    · have he : Memory.erase k (c :: m) = Memory.erase k m := by simp [Memory.erase, hc]
      rw [he]
      exact Memory.wfFrom_mono (by omega) hm
    · have he : Memory.erase k (c :: m) = c :: Memory.erase k m := by simp [Memory.erase, hc]
      rw [he]
      simp only [Memory.wfFrom, Bool.and_eq_true, decide_eq_true_eq]
      exact ⟨h.1, hm⟩

theorem Memory.insert_wfFrom (c : Host.Cell) (lo : Nat) (m : Memory) (h : Memory.wfFrom lo m = true)
    (hn : Memory.find c.1 m = none) (hlo : lo ≤ c.1) (hc : c.1 < 16)
    (hw : c.2 ≠ romContent (BitVec.ofNat 4 c.1)) : Memory.wfFrom lo (Memory.insert c m) = true := by
  induction m generalizing lo with
  | nil => simp [Memory.insert, Memory.wfFrom, hlo, hc, hw]
  | cons x m ih =>
    simp only [Memory.wfFrom, Bool.and_eq_true, decide_eq_true_eq] at h
    have hx : x.1 ≠ c.1 := by
      intro e
      simp [Memory.find, e] at hn
    have hm : Memory.find c.1 m = none := by simpa [Memory.find, hx] using hn
    by_cases hlt : c.1 < x.1
    · have he : Memory.insert c (x :: m) = c :: x :: m := by simp [Memory.insert, hlt]
      rw [he]
      simp only [Memory.wfFrom, Bool.and_eq_true, decide_eq_true_eq, bne_iff_ne]
      exact ⟨⟨⟨hlo, hc⟩, hw⟩, ⟨⟨by omega, h.1.1.2⟩, by simpa using h.1.2⟩, h.2⟩
    · have he : Memory.insert c (x :: m) = x :: Memory.insert c m := by simp [Memory.insert, hlt]
      rw [he]
      simp only [Memory.wfFrom, Bool.and_eq_true, decide_eq_true_eq]
      exact ⟨h.1, ih _ h.2 hm (by omega)⟩

/-- A write keeps the canonical form. -/
theorem Memory.write_wf (m : Memory) (a : Addr4) (w : Cw8) (h : m.wf = true) : (m.write a w).wf = true := by
  have he := Memory.erase_wfFrom a.toNat 0 m h
  by_cases hw : w = romContent a
  · simpa [Memory.write, hw, Memory.wf] using he
  · simp only [Memory.write, if_neg hw]
    refine Memory.insert_wfFrom (a.toNat, w) 0 _ he (Memory.find_erase_same _ m) (Nat.zero_le _) a.isLt ?_
    simpa using hw

/-- Storing the codeword of each index of a list leaves the canonical form. -/
theorem Memory.foldl_write_wf (l : List Addr4) (m : Memory) (h : m.wf = true) :
    (l.foldl (fun m i => m.write i (enc i)) m).wf = true := by
  induction l generalizing m with
  | nil => exact h
  | cons i l ih => exact ih _ (Memory.write_wf m i _ h)

/-- After storing the codeword of each index of a list, an index of the list holds its codeword, and so does any
other that held it before. -/
theorem Memory.foldl_write_read (l : List Addr4) (m : Memory) (a : Addr4) (h : a ∈ l ∨ m.read a = enc a) :
    (l.foldl (fun m i => m.write i (enc i)) m).read a = enc a := by
  induction l generalizing m with
  | nil => exact h.resolve_left (by simp)
  | cons i l ih =>
    refine ih _ ?_
    by_cases hi : a = i
    · exact .inr (by rw [hi, Memory.read_write_same])
    · rcases h with h | h
      · exact .inl (by simpa [hi] using h)
      · exact .inr (by rw [Memory.read_write_ne m _ hi, h])

/-- CBBUILD's loop keeps the canonical form. -/
theorem Memory.build_wf (m : Memory) (h : m.wf = true) : m.build.wf = true := by
  unfold Memory.build
  exact Memory.foldl_write_wf _ _ h

/-- Every index is one of the 16. -/
theorem mem_indices : ∀ a : Addr4, a ∈ indices := by decide

/-- After CBBUILD's loop every index holds its codeword, whatever the list was (R65). -/
@[simp] theorem Memory.read_build (m : Memory) (a : Addr4) : m.build.read a = enc a := by
  unfold Memory.build
  exact Memory.foldl_write_read _ _ a (.inl (mem_indices a))

/-- Every word of the built ROM is the codeword of its index (R65, R66). -/
@[simp] theorem Rom.read_eq_enc (r : Rom) (a : Addr4) : r.read a = enc a := by
  have h := List.all_eq_true.mp r.holdsCodebook a (mem_indices a)
  simpa [Rom.read] using h

/-- The built ROM as a function is the encoder: what an operation sees on the constant bus. -/
@[simp] theorem Rom.read_funext (r : Rom) : r.read = enc := funext r.read_eq_enc

/-- A list in canonical form whose indices all hold their codewords lists nothing. -/
theorem Memory.eq_nil_of_read (m : Memory) (hw : m.wf = true) (hr : ∀ a, m.read a = enc a) : m = [] := by
  cases m with
  | nil => rfl
  | cons c m =>
    simp only [Memory.wf, Memory.wfFrom, Bool.and_eq_true, decide_eq_true_eq, bne_iff_ne] at hw
    have hc : c.1 < 16 := hw.1.1.2
    have e : (BitVec.ofNat 4 c.1).toNat = c.1 := by
      simp only [BitVec.toNat_ofNat]
      omega
    have h := hr (BitVec.ofNat 4 c.1)
    simp only [Memory.read, e, Memory.find, if_true, Option.getD_some] at h
    exact absurd h hw.1.2

/-- There is one built ROM: nothing can change it (R10, R24). -/
theorem Rom.eq_elaborate (r : Rom) : r = Rom.elaborate := by
  have h : ∀ q : Rom, q.cells = [] := fun q => q.cells.eq_nil_of_read q.canonical q.read_eq_enc
  have hc : r.cells = Rom.elaborate.cells := (h r).trans (h Rom.elaborate).symm
  cases r
  cases hc
  rfl

/-- The ROM's list at reset is in canonical form. -/
theorem State.reset_rom_wf : State.reset.rom.cells.wf = true := State.reset.rom.canonical

end Sys2Proof.Machine
end

