-- ==== Sys2Proof/Laws/Selector.lean ====
section
/-! SUPPORT. The laws of the distance calculator and of the selector's scan. -/

namespace Sys2Proof.Machine

/-- A word has at most 8 bits that are 1. -/
theorem popcount8_le (w : BitVec 8) : popcount8 w ≤ 8 := by
  have h : ∀ b : Bool, b.toNat ≤ 1 := Bool.toNat_le
  have h0 := h w[0]; have h1 := h w[1]; have h2 := h w[2]; have h3 := h w[3]
  have h4 := h w[4]; have h5 := h w[5]; have h6 := h w[6]; have h7 := h w[7]
  simp only [popcount8]
  omega

/-- A distance, read as a number, is the count of differing bits: 4 bits hold it (R80). -/
theorem hdist_toNat (a b : BitVec 8) : (hdist a b).toNat = popcount8 (a ^^^ b) := by
  have h := popcount8_le (a ^^^ b)
  simp only [hdist, BitVec.toNat_ofNat]
  omega

/-- One stage of the selector gives one of its two candidates, the nearer one, and the earlier one on a tie. -/
theorem closer_spec (d : Addr4 → Dist4) (best i : Addr4) :
    (closer d best i = i ∧ d i < d best) ∨ (closer d best i = best ∧ d best ≤ d i) := by
  by_cases h : d i < d best
  · exact .inl ⟨if_pos h, h⟩
  · exact .inr ⟨if_neg h, BitVec.not_lt.mp h⟩

/-- The scan over a list gives an index at least as near as its start and as every index of the list. -/
theorem foldl_closer_le (d : Addr4 → Dist4) (l : List Addr4) (best : Addr4) :
    d (l.foldl (closer d) best) ≤ d best ∧ ∀ i ∈ l, d (l.foldl (closer d) best) ≤ d i := by
  induction l generalizing best with
  | nil => exact ⟨BitVec.le_refl _, by simp⟩
  | cons i l ih =>
    obtain ⟨h1, h2⟩ := ih (closer d best i)
    rcases closer_spec d best i with ⟨e, h⟩ | ⟨e, h⟩ <;> rw [e] at h1 h2 <;> simp only [List.foldl_cons, e]
    · exact ⟨BitVec.le_trans h1 (BitVec.le_of_lt h), by simpa using ⟨h1, h2⟩⟩
    · exact ⟨h1, by simpa using ⟨BitVec.le_trans h1 h, h2⟩⟩

/-- The information field of a codeword is its information word (R57). -/
theorem infoField_assemble (p7 p6 p5 p4 : Bit) (info : Info4) :
    infoField (assembleCodeword p7 p6 p5 p4 info) = info := by
  apply BitVec.eq_of_getLsbD_eq
  intro i hi
  simp only [infoField, assembleCodeword, BitVec.getLsbD_extractLsb', BitVec.getLsbD_append]
  simp [hi]

end Sys2Proof.Machine
end

