-- ==== Sys2Proof/Laws/State.lean ====
section
/-! SUPPORT. What every update of State leaves in every field: one lemma a field an update. -/

namespace Sys2Proof.Machine

variable (s : State)

section withEncoderPort

variable (i : Info4) (o : Cw8)

@[simp] theorem State.withEncoderPort_rom : (s.withEncoderPort i o).rom = s.rom := rfl
@[simp] theorem State.withEncoderPort_info_i : (s.withEncoderPort i o).info_i = i := rfl
@[simp] theorem State.withEncoderPort_codeword_o : (s.withEncoderPort i o).codeword_o = o := rfl
@[simp] theorem State.withEncoderPort_addr_i : (s.withEncoderPort i o).addr_i = s.addr_i := rfl
@[simp] theorem State.withEncoderPort_data_o : (s.withEncoderPort i o).data_o = s.data_o := rfl
@[simp] theorem State.withEncoderPort_received_i : (s.withEncoderPort i o).received_i = s.received_i := rfl
@[simp] theorem State.withEncoderPort_info_o : (s.withEncoderPort i o).info_o = s.info_o := rfl
@[simp] theorem State.withEncoderPort_p4 : (s.withEncoderPort i o).p4 = s.p4 := rfl
@[simp] theorem State.withEncoderPort_p5 : (s.withEncoderPort i o).p5 = s.p5 := rfl
@[simp] theorem State.withEncoderPort_p6 : (s.withEncoderPort i o).p6 = s.p6 := rfl
@[simp] theorem State.withEncoderPort_p7 : (s.withEncoderPort i o).p7 = s.p7 := rfl
@[simp] theorem State.withEncoderPort_product : (s.withEncoderPort i o).product = s.product := rfl
@[simp] theorem State.withEncoderPort_dist : (s.withEncoderPort i o).dist = s.dist := rfl
@[simp] theorem State.withEncoderPort_sel : (s.withEncoderPort i o).sel = s.sel := rfl
@[simp] theorem State.withEncoderPort_pending : (s.withEncoderPort i o).pending = s.pending := rfl

end withEncoderPort

section withRomPort

variable (i : Addr4) (o : Cw8)

@[simp] theorem State.withRomPort_rom : (s.withRomPort i o).rom = s.rom := rfl
@[simp] theorem State.withRomPort_info_i : (s.withRomPort i o).info_i = s.info_i := rfl
@[simp] theorem State.withRomPort_codeword_o : (s.withRomPort i o).codeword_o = s.codeword_o := rfl
@[simp] theorem State.withRomPort_addr_i : (s.withRomPort i o).addr_i = i := rfl
@[simp] theorem State.withRomPort_data_o : (s.withRomPort i o).data_o = o := rfl
@[simp] theorem State.withRomPort_received_i : (s.withRomPort i o).received_i = s.received_i := rfl
@[simp] theorem State.withRomPort_info_o : (s.withRomPort i o).info_o = s.info_o := rfl
@[simp] theorem State.withRomPort_p4 : (s.withRomPort i o).p4 = s.p4 := rfl
@[simp] theorem State.withRomPort_p5 : (s.withRomPort i o).p5 = s.p5 := rfl
@[simp] theorem State.withRomPort_p6 : (s.withRomPort i o).p6 = s.p6 := rfl
@[simp] theorem State.withRomPort_p7 : (s.withRomPort i o).p7 = s.p7 := rfl
@[simp] theorem State.withRomPort_product : (s.withRomPort i o).product = s.product := rfl
@[simp] theorem State.withRomPort_dist : (s.withRomPort i o).dist = s.dist := rfl
@[simp] theorem State.withRomPort_sel : (s.withRomPort i o).sel = s.sel := rfl
@[simp] theorem State.withRomPort_pending : (s.withRomPort i o).pending = s.pending := rfl

end withRomPort

section withDecoderPort

variable (i : Rx8) (o : Info4)

@[simp] theorem State.withDecoderPort_rom : (s.withDecoderPort i o).rom = s.rom := rfl
@[simp] theorem State.withDecoderPort_info_i : (s.withDecoderPort i o).info_i = s.info_i := rfl
@[simp] theorem State.withDecoderPort_codeword_o : (s.withDecoderPort i o).codeword_o = s.codeword_o := rfl
@[simp] theorem State.withDecoderPort_addr_i : (s.withDecoderPort i o).addr_i = s.addr_i := rfl
@[simp] theorem State.withDecoderPort_data_o : (s.withDecoderPort i o).data_o = s.data_o := rfl
@[simp] theorem State.withDecoderPort_received_i : (s.withDecoderPort i o).received_i = i := rfl
@[simp] theorem State.withDecoderPort_info_o : (s.withDecoderPort i o).info_o = o := rfl
@[simp] theorem State.withDecoderPort_p4 : (s.withDecoderPort i o).p4 = s.p4 := rfl
@[simp] theorem State.withDecoderPort_p5 : (s.withDecoderPort i o).p5 = s.p5 := rfl
@[simp] theorem State.withDecoderPort_p6 : (s.withDecoderPort i o).p6 = s.p6 := rfl
@[simp] theorem State.withDecoderPort_p7 : (s.withDecoderPort i o).p7 = s.p7 := rfl
@[simp] theorem State.withDecoderPort_product : (s.withDecoderPort i o).product = s.product := rfl
@[simp] theorem State.withDecoderPort_dist : (s.withDecoderPort i o).dist = s.dist := rfl
@[simp] theorem State.withDecoderPort_sel : (s.withDecoderPort i o).sel = s.sel := rfl
@[simp] theorem State.withDecoderPort_pending : (s.withDecoderPort i o).pending = s.pending := rfl

end withDecoderPort

section withP4

variable (v : Bit)

@[simp] theorem State.withP4_rom : (s.withP4 v).rom = s.rom := rfl
@[simp] theorem State.withP4_info_i : (s.withP4 v).info_i = s.info_i := rfl
@[simp] theorem State.withP4_codeword_o : (s.withP4 v).codeword_o = s.codeword_o := rfl
@[simp] theorem State.withP4_addr_i : (s.withP4 v).addr_i = s.addr_i := rfl
@[simp] theorem State.withP4_data_o : (s.withP4 v).data_o = s.data_o := rfl
@[simp] theorem State.withP4_received_i : (s.withP4 v).received_i = s.received_i := rfl
@[simp] theorem State.withP4_info_o : (s.withP4 v).info_o = s.info_o := rfl
@[simp] theorem State.withP4_p4 : (s.withP4 v).p4 = v := rfl
@[simp] theorem State.withP4_p5 : (s.withP4 v).p5 = s.p5 := rfl
@[simp] theorem State.withP4_p6 : (s.withP4 v).p6 = s.p6 := rfl
@[simp] theorem State.withP4_p7 : (s.withP4 v).p7 = s.p7 := rfl
@[simp] theorem State.withP4_product : (s.withP4 v).product = s.product := rfl
@[simp] theorem State.withP4_dist : (s.withP4 v).dist = s.dist := rfl
@[simp] theorem State.withP4_sel : (s.withP4 v).sel = s.sel := rfl
@[simp] theorem State.withP4_pending : (s.withP4 v).pending = s.pending := rfl

end withP4

section withP5

variable (v : Bit)

@[simp] theorem State.withP5_rom : (s.withP5 v).rom = s.rom := rfl
@[simp] theorem State.withP5_info_i : (s.withP5 v).info_i = s.info_i := rfl
@[simp] theorem State.withP5_codeword_o : (s.withP5 v).codeword_o = s.codeword_o := rfl
@[simp] theorem State.withP5_addr_i : (s.withP5 v).addr_i = s.addr_i := rfl
@[simp] theorem State.withP5_data_o : (s.withP5 v).data_o = s.data_o := rfl
@[simp] theorem State.withP5_received_i : (s.withP5 v).received_i = s.received_i := rfl
@[simp] theorem State.withP5_info_o : (s.withP5 v).info_o = s.info_o := rfl
@[simp] theorem State.withP5_p4 : (s.withP5 v).p4 = s.p4 := rfl
@[simp] theorem State.withP5_p5 : (s.withP5 v).p5 = v := rfl
@[simp] theorem State.withP5_p6 : (s.withP5 v).p6 = s.p6 := rfl
@[simp] theorem State.withP5_p7 : (s.withP5 v).p7 = s.p7 := rfl
@[simp] theorem State.withP5_product : (s.withP5 v).product = s.product := rfl
@[simp] theorem State.withP5_dist : (s.withP5 v).dist = s.dist := rfl
@[simp] theorem State.withP5_sel : (s.withP5 v).sel = s.sel := rfl
@[simp] theorem State.withP5_pending : (s.withP5 v).pending = s.pending := rfl

end withP5

section withP6

variable (v : Bit)

@[simp] theorem State.withP6_rom : (s.withP6 v).rom = s.rom := rfl
@[simp] theorem State.withP6_info_i : (s.withP6 v).info_i = s.info_i := rfl
@[simp] theorem State.withP6_codeword_o : (s.withP6 v).codeword_o = s.codeword_o := rfl
@[simp] theorem State.withP6_addr_i : (s.withP6 v).addr_i = s.addr_i := rfl
@[simp] theorem State.withP6_data_o : (s.withP6 v).data_o = s.data_o := rfl
@[simp] theorem State.withP6_received_i : (s.withP6 v).received_i = s.received_i := rfl
@[simp] theorem State.withP6_info_o : (s.withP6 v).info_o = s.info_o := rfl
@[simp] theorem State.withP6_p4 : (s.withP6 v).p4 = s.p4 := rfl
@[simp] theorem State.withP6_p5 : (s.withP6 v).p5 = s.p5 := rfl
@[simp] theorem State.withP6_p6 : (s.withP6 v).p6 = v := rfl
@[simp] theorem State.withP6_p7 : (s.withP6 v).p7 = s.p7 := rfl
@[simp] theorem State.withP6_product : (s.withP6 v).product = s.product := rfl
@[simp] theorem State.withP6_dist : (s.withP6 v).dist = s.dist := rfl
@[simp] theorem State.withP6_sel : (s.withP6 v).sel = s.sel := rfl
@[simp] theorem State.withP6_pending : (s.withP6 v).pending = s.pending := rfl

end withP6

section withP7

variable (v : Bit)

@[simp] theorem State.withP7_rom : (s.withP7 v).rom = s.rom := rfl
@[simp] theorem State.withP7_info_i : (s.withP7 v).info_i = s.info_i := rfl
@[simp] theorem State.withP7_codeword_o : (s.withP7 v).codeword_o = s.codeword_o := rfl
@[simp] theorem State.withP7_addr_i : (s.withP7 v).addr_i = s.addr_i := rfl
@[simp] theorem State.withP7_data_o : (s.withP7 v).data_o = s.data_o := rfl
@[simp] theorem State.withP7_received_i : (s.withP7 v).received_i = s.received_i := rfl
@[simp] theorem State.withP7_info_o : (s.withP7 v).info_o = s.info_o := rfl
@[simp] theorem State.withP7_p4 : (s.withP7 v).p4 = s.p4 := rfl
@[simp] theorem State.withP7_p5 : (s.withP7 v).p5 = s.p5 := rfl
@[simp] theorem State.withP7_p6 : (s.withP7 v).p6 = s.p6 := rfl
@[simp] theorem State.withP7_p7 : (s.withP7 v).p7 = v := rfl
@[simp] theorem State.withP7_product : (s.withP7 v).product = s.product := rfl
@[simp] theorem State.withP7_dist : (s.withP7 v).dist = s.dist := rfl
@[simp] theorem State.withP7_sel : (s.withP7 v).sel = s.sel := rfl
@[simp] theorem State.withP7_pending : (s.withP7 v).pending = s.pending := rfl

end withP7

section withProduct

variable (v : Cw8)

@[simp] theorem State.withProduct_rom : (s.withProduct v).rom = s.rom := rfl
@[simp] theorem State.withProduct_info_i : (s.withProduct v).info_i = s.info_i := rfl
@[simp] theorem State.withProduct_codeword_o : (s.withProduct v).codeword_o = s.codeword_o := rfl
@[simp] theorem State.withProduct_addr_i : (s.withProduct v).addr_i = s.addr_i := rfl
@[simp] theorem State.withProduct_data_o : (s.withProduct v).data_o = s.data_o := rfl
@[simp] theorem State.withProduct_received_i : (s.withProduct v).received_i = s.received_i := rfl
@[simp] theorem State.withProduct_info_o : (s.withProduct v).info_o = s.info_o := rfl
@[simp] theorem State.withProduct_p4 : (s.withProduct v).p4 = s.p4 := rfl
@[simp] theorem State.withProduct_p5 : (s.withProduct v).p5 = s.p5 := rfl
@[simp] theorem State.withProduct_p6 : (s.withProduct v).p6 = s.p6 := rfl
@[simp] theorem State.withProduct_p7 : (s.withProduct v).p7 = s.p7 := rfl
@[simp] theorem State.withProduct_product : (s.withProduct v).product = v := rfl
@[simp] theorem State.withProduct_dist : (s.withProduct v).dist = s.dist := rfl
@[simp] theorem State.withProduct_sel : (s.withProduct v).sel = s.sel := rfl
@[simp] theorem State.withProduct_pending : (s.withProduct v).pending = s.pending := rfl

end withProduct

section withDist

variable (v : Dist4)

@[simp] theorem State.withDist_rom : (s.withDist v).rom = s.rom := rfl
@[simp] theorem State.withDist_info_i : (s.withDist v).info_i = s.info_i := rfl
@[simp] theorem State.withDist_codeword_o : (s.withDist v).codeword_o = s.codeword_o := rfl
@[simp] theorem State.withDist_addr_i : (s.withDist v).addr_i = s.addr_i := rfl
@[simp] theorem State.withDist_data_o : (s.withDist v).data_o = s.data_o := rfl
@[simp] theorem State.withDist_received_i : (s.withDist v).received_i = s.received_i := rfl
@[simp] theorem State.withDist_info_o : (s.withDist v).info_o = s.info_o := rfl
@[simp] theorem State.withDist_p4 : (s.withDist v).p4 = s.p4 := rfl
@[simp] theorem State.withDist_p5 : (s.withDist v).p5 = s.p5 := rfl
@[simp] theorem State.withDist_p6 : (s.withDist v).p6 = s.p6 := rfl
@[simp] theorem State.withDist_p7 : (s.withDist v).p7 = s.p7 := rfl
@[simp] theorem State.withDist_product : (s.withDist v).product = s.product := rfl
@[simp] theorem State.withDist_dist : (s.withDist v).dist = v := rfl
@[simp] theorem State.withDist_sel : (s.withDist v).sel = s.sel := rfl
@[simp] theorem State.withDist_pending : (s.withDist v).pending = s.pending := rfl

end withDist

section withSel

variable (v : Addr4)

@[simp] theorem State.withSel_rom : (s.withSel v).rom = s.rom := rfl
@[simp] theorem State.withSel_info_i : (s.withSel v).info_i = s.info_i := rfl
@[simp] theorem State.withSel_codeword_o : (s.withSel v).codeword_o = s.codeword_o := rfl
@[simp] theorem State.withSel_addr_i : (s.withSel v).addr_i = s.addr_i := rfl
@[simp] theorem State.withSel_data_o : (s.withSel v).data_o = s.data_o := rfl
@[simp] theorem State.withSel_received_i : (s.withSel v).received_i = s.received_i := rfl
@[simp] theorem State.withSel_info_o : (s.withSel v).info_o = s.info_o := rfl
@[simp] theorem State.withSel_p4 : (s.withSel v).p4 = s.p4 := rfl
@[simp] theorem State.withSel_p5 : (s.withSel v).p5 = s.p5 := rfl
@[simp] theorem State.withSel_p6 : (s.withSel v).p6 = s.p6 := rfl
@[simp] theorem State.withSel_p7 : (s.withSel v).p7 = s.p7 := rfl
@[simp] theorem State.withSel_product : (s.withSel v).product = s.product := rfl
@[simp] theorem State.withSel_dist : (s.withSel v).dist = s.dist := rfl
@[simp] theorem State.withSel_sel : (s.withSel v).sel = v := rfl
@[simp] theorem State.withSel_pending : (s.withSel v).pending = s.pending := rfl

end withSel

section withPending

variable (q : List Request)

@[simp] theorem State.withPending_rom : (s.withPending q).rom = s.rom := rfl
@[simp] theorem State.withPending_info_i : (s.withPending q).info_i = s.info_i := rfl
@[simp] theorem State.withPending_codeword_o : (s.withPending q).codeword_o = s.codeword_o := rfl
@[simp] theorem State.withPending_addr_i : (s.withPending q).addr_i = s.addr_i := rfl
@[simp] theorem State.withPending_data_o : (s.withPending q).data_o = s.data_o := rfl
@[simp] theorem State.withPending_received_i : (s.withPending q).received_i = s.received_i := rfl
@[simp] theorem State.withPending_info_o : (s.withPending q).info_o = s.info_o := rfl
@[simp] theorem State.withPending_p4 : (s.withPending q).p4 = s.p4 := rfl
@[simp] theorem State.withPending_p5 : (s.withPending q).p5 = s.p5 := rfl
@[simp] theorem State.withPending_p6 : (s.withPending q).p6 = s.p6 := rfl
@[simp] theorem State.withPending_p7 : (s.withPending q).p7 = s.p7 := rfl
@[simp] theorem State.withPending_product : (s.withPending q).product = s.product := rfl
@[simp] theorem State.withPending_dist : (s.withPending q).dist = s.dist := rfl
@[simp] theorem State.withPending_sel : (s.withPending q).sel = s.sel := rfl
@[simp] theorem State.withPending_pending : (s.withPending q).pending = q := rfl

end withPending

section driveEncoder

variable (info : Info4)

@[simp] theorem State.driveEncoder_rom : (s.driveEncoder info).rom = s.rom := rfl
@[simp] theorem State.driveEncoder_info_i : (s.driveEncoder info).info_i = info := rfl
@[simp] theorem State.driveEncoder_codeword_o : (s.driveEncoder info).codeword_o = enc info := rfl
@[simp] theorem State.driveEncoder_addr_i : (s.driveEncoder info).addr_i = s.addr_i := rfl
@[simp] theorem State.driveEncoder_data_o : (s.driveEncoder info).data_o = s.data_o := rfl
@[simp] theorem State.driveEncoder_received_i : (s.driveEncoder info).received_i = s.received_i := rfl
@[simp] theorem State.driveEncoder_info_o : (s.driveEncoder info).info_o = s.info_o := rfl
@[simp] theorem State.driveEncoder_p4 : (s.driveEncoder info).p4 = s.p4 := rfl
@[simp] theorem State.driveEncoder_p5 : (s.driveEncoder info).p5 = s.p5 := rfl
@[simp] theorem State.driveEncoder_p6 : (s.driveEncoder info).p6 = s.p6 := rfl
@[simp] theorem State.driveEncoder_p7 : (s.driveEncoder info).p7 = s.p7 := rfl
@[simp] theorem State.driveEncoder_product : (s.driveEncoder info).product = s.product := rfl
@[simp] theorem State.driveEncoder_dist : (s.driveEncoder info).dist = s.dist := rfl
@[simp] theorem State.driveEncoder_sel : (s.driveEncoder info).sel = s.sel := rfl
@[simp] theorem State.driveEncoder_pending : (s.driveEncoder info).pending = s.pending := rfl

end driveEncoder

section driveRom

variable (addr : Addr4)

@[simp] theorem State.driveRom_rom : (s.driveRom addr).rom = s.rom := rfl
@[simp] theorem State.driveRom_info_i : (s.driveRom addr).info_i = s.info_i := rfl
@[simp] theorem State.driveRom_codeword_o : (s.driveRom addr).codeword_o = s.codeword_o := rfl
@[simp] theorem State.driveRom_addr_i : (s.driveRom addr).addr_i = addr := rfl
@[simp] theorem State.driveRom_data_o : (s.driveRom addr).data_o = s.rom.read addr := rfl
@[simp] theorem State.driveRom_received_i : (s.driveRom addr).received_i = s.received_i := rfl
@[simp] theorem State.driveRom_info_o : (s.driveRom addr).info_o = s.info_o := rfl
@[simp] theorem State.driveRom_p4 : (s.driveRom addr).p4 = s.p4 := rfl
@[simp] theorem State.driveRom_p5 : (s.driveRom addr).p5 = s.p5 := rfl
@[simp] theorem State.driveRom_p6 : (s.driveRom addr).p6 = s.p6 := rfl
@[simp] theorem State.driveRom_p7 : (s.driveRom addr).p7 = s.p7 := rfl
@[simp] theorem State.driveRom_product : (s.driveRom addr).product = s.product := rfl
@[simp] theorem State.driveRom_dist : (s.driveRom addr).dist = s.dist := rfl
@[simp] theorem State.driveRom_sel : (s.driveRom addr).sel = s.sel := rfl
@[simp] theorem State.driveRom_pending : (s.driveRom addr).pending = s.pending := rfl

end driveRom

section driveDecoder

variable (r : Rx8)

@[simp] theorem State.driveDecoder_rom : (s.driveDecoder r).rom = s.rom := rfl
@[simp] theorem State.driveDecoder_info_i : (s.driveDecoder r).info_i = s.info_i := rfl
@[simp] theorem State.driveDecoder_codeword_o : (s.driveDecoder r).codeword_o = s.codeword_o := rfl
@[simp] theorem State.driveDecoder_addr_i : (s.driveDecoder r).addr_i = s.addr_i := rfl
@[simp] theorem State.driveDecoder_data_o : (s.driveDecoder r).data_o = s.data_o := rfl
@[simp] theorem State.driveDecoder_received_i : (s.driveDecoder r).received_i = r := rfl
@[simp] theorem State.driveDecoder_info_o : (s.driveDecoder r).info_o = decodeWith s.cb r := rfl
@[simp] theorem State.driveDecoder_p4 : (s.driveDecoder r).p4 = s.p4 := rfl
@[simp] theorem State.driveDecoder_p5 : (s.driveDecoder r).p5 = s.p5 := rfl
@[simp] theorem State.driveDecoder_p6 : (s.driveDecoder r).p6 = s.p6 := rfl
@[simp] theorem State.driveDecoder_p7 : (s.driveDecoder r).p7 = s.p7 := rfl
@[simp] theorem State.driveDecoder_product : (s.driveDecoder r).product = s.product := rfl
@[simp] theorem State.driveDecoder_dist : (s.driveDecoder r).dist = s.dist := rfl
@[simp] theorem State.driveDecoder_sel : (s.driveDecoder r).sel = s.sel := rfl
@[simp] theorem State.driveDecoder_pending : (s.driveDecoder r).pending = s.pending := rfl

end driveDecoder

end Sys2Proof.Machine
end

