-- ==== Sys2Proof/Laws/Ops.lean ====
section
/-! SUPPORT. What each shared operation can do, said once: driving a port, taking and asking a request, and one
step. -/

namespace Sys2Proof.Machine

variable (s : State)

/-- Driving the encoder changes its two ports and nothing else. -/
theorem State.driveEncoder_eq (info : Info4) :
    s.driveEncoder info = { s with info_i := info, codeword_o := enc info } := rfl

/-- Driving the ROM changes its two ports and nothing else. -/
theorem State.driveRom_eq (addr : Addr4) :
    s.driveRom addr = { s with addr_i := addr, data_o := s.rom.read addr } := rfl

/-- Driving the decoder changes its two ports and nothing else. -/
theorem State.driveDecoder_eq (r : Rx8) :
    s.driveDecoder r = { s with received_i := r, info_o := decodeWith s.rom.read r } := rfl

/-- The ROM of every state is built. -/
theorem State.romBuilt : s.RomBuilt := s.rom.read_eq_enc

/-- Two codebooks with the same words decode alike. -/
theorem decodeWith_congr {cb cb' : Addr4 → Cw8} (h : ∀ a, cb a = cb' a) (r : Rx8) :
    decodeWith cb r = decodeWith cb' r := by
  rw [funext h]

/-- There is a request to take exactly when something is asked for. -/
theorem State.take_cases :
    (s.pending = [] ∧ s.take = none) ∨
      ∃ r rest, s.pending = r :: rest ∧ s.take = some (r, s.withPending rest) := by
  cases h : s.pending with
  | nil => exact .inl ⟨rfl, by simp [State.take, h]⟩
  | cons r rest => exact .inr ⟨r, rest, rfl, by simp [State.take, h]⟩

/-- A request just asked for is the one taken, from the state before. -/
@[simp] theorem State.take_ask (r : Request) : (s.ask r).take = some (r, s) := rfl

/-- Everything a step can do: nothing when nothing is asked for, the operation that the oldest request stands
for, or a refusal when it stands for none. -/
theorem step_cases :
    (s.pending = [] ∧ step s = .next s) ∨
      (∃ r rest i, s.pending = r :: rest ∧ decode r = .ok i ∧ step s = exec i (s.withPending rest)) ∨
      (∃ r rest e, s.pending = r :: rest ∧ decode r = .error e ∧ step s = .refused (refusalOf e)) := by
  rcases s.take_cases with ⟨hp, ht⟩ | ⟨r, rest, hp, ht⟩
  · exact .inl ⟨hp, by simp [step, ht]⟩
  · cases hd : decode r with
    | ok i => exact .inr (.inl ⟨r, rest, i, hp, hd, by simp [step, ht, hd]⟩)
    | error e => exact .inr (.inr ⟨r, rest, e, hp, hd, by simp [step, ht, hd]⟩)

/-- A legal request decodes to the operation of its entry and word. -/
theorem decode_legal {r : Request} (h : r.legal) : decode r = .ok (decodeFields r.entry r.word) := by
  simp only [decode, if_pos h.1]
  exact if_pos h.2

/-- Only a legal request decodes to an operation. -/
theorem legal_of_decode {r : Request} {i : Instr} (h : decode r = .ok i) : r.legal := by
  simp only [decode] at h
  split at h
  · split at h
    · exact ⟨‹_›, ‹_›⟩
    · cases h
  · cases h

/-- Asking for another request changes the ports and the ROM in nothing. -/
theorem State.withPending_settled {s : State} (q : List Request) (h : s.Settled) : (s.withPending q).Settled :=
  ⟨h.encoder, h.rom, h.decoder⟩

end Sys2Proof.Machine
end

