-- ==== Sys2Proof/Laws/PerInstr.lean ====
section
/-! SUPPORT. Statements about every operation as syntax, one lemma a constructor. -/

namespace Sys2Proof

/-- A list of nibbles packs into as many bits as it has, four a nibble. -/
theorem packNibbles_lt (l : List (BitVec 4)) : packNibbles l < 16 ^ l.length := by
  induction l with
  | nil => decide
  | cons d l ih =>
    have hd : d.toNat < 16 := d.isLt
    simp only [packNibbles, List.length_cons, Nat.pow_succ]
    omega

end Sys2Proof

namespace Sys2Proof.Laws.OperandFits

/-- The operand word of an operation fits its entry (R35, R41). -/
def Statement (i : Instr) : Prop := (encode i).word < 2 ^ (encode i).entry.width

theorem par4 (info : Info4) : Statement (.par4 info) := info.isLt

theorem par5 (info : Info4) : Statement (.par5 info) := info.isLt

theorem par6 (info : Info4) : Statement (.par6 info) := info.isLt

theorem par7 (info : Info4) : Statement (.par7 info) := info.isLt

theorem gmul (info : Info4) : Statement (.gmul info) := info.isLt

theorem enc (info : Info4) : Statement (.enc info) := info.isLt

theorem cbbuild : Statement .cbbuild := Nat.one_pos

theorem romrd (addr : Addr4) : Statement (.romrd addr) := addr.isLt

theorem hdist (a : Rx8) (b : Cw8) : Statement (.hdist a b) := by
  have ha : a.toNat < 256 := a.isLt
  have hb : b.toNat < 256 := b.isLt
  show 256 * a.toNat + b.toNat < 65536
  omega

theorem argmin (d : Vector Dist4 16) : Statement (.argmin d) := by
  have h := packNibbles_lt d.toList
  rw [Vector.length_toList] at h
  exact h

theorem dec (received : Rx8) : Statement (.dec received) := received.isLt

end Sys2Proof.Laws.OperandFits
end

