-- ==== Sys2Proof/Tests/Slice0.lean ====
section
/-! SUPPORT. The model's own tests: ill-formed operations, operand words written out from 30_encoding.md, one or two
steps of each operation with the value that spec/ gives, and for every statement with hypotheses a state and
operands that meet them. -/

namespace Sys2Proof.Tests

open Sys2Proof.Machine

/-! ### Ill-formed operations -/

/-- A distance of 9 never occurs (R35). -/
theorem test_wf_refuses_distance_9 :
    (Instr.argmin #v[8, 8, 8, 8, 8, 8, 8, 8, 8, 8, 8, 8, 8, 8, 8, 9]).wf = false := by decide

/-- A distance of 8 does (R35). -/
theorem test_wf_accepts_distance_8 :
    (Instr.argmin #v[8, 8, 8, 8, 8, 8, 8, 8, 8, 8, 8, 8, 8, 8, 8, 8]).wf = true := by decide

/-! ### Operand words (R35, R45) -/

theorem test_decode_par4 : decode ⟨.hardware, .par4, 0b0001⟩ = .ok (.par4 1) := by decide

theorem test_decode_par5 : decode ⟨.hardware, .par5, 0b0010⟩ = .ok (.par5 2) := by decide

theorem test_decode_par6 : decode ⟨.hardware, .par6, 0b0100⟩ = .ok (.par6 4) := by decide

theorem test_decode_par7 : decode ⟨.hardware, .par7, 0b1000⟩ = .ok (.par7 8) := by decide

theorem test_decode_gmul : decode ⟨.hardware, .gmul, 0b1010⟩ = .ok (.gmul 10) := by decide

theorem test_decode_enc : decode ⟨.host, .enc, 0b0101⟩ = .ok (.enc 5) := by decide

theorem test_decode_cbbuild : decode ⟨.hardware, .cbbuild, 0⟩ = .ok .cbbuild := by decide

theorem test_decode_romrd : decode ⟨.host, .romrd, 0b1001⟩ = .ok (.romrd 9) := by decide

/-- a stands in bits 15 to 8 and b in bits 7 to 0. -/
theorem test_decode_hdist : decode ⟨.hardware, .hdist, 0b1111111111111110⟩ = .ok (.hdist 0xFF 0xFE) := by decide

/-- d0 stands in bits 3 to 0 and d15 in bits 63 to 60. -/
theorem test_decode_argmin :
    decode ⟨.hardware, .argmin, 0x7000000000000021⟩ =
      .ok (.argmin #v[1, 2, 0, 0, 0, 0, 0, 0, 0, 0, 0, 0, 0, 0, 0, 7]) := by decide

theorem test_decode_dec : decode ⟨.host, .dec, 0b11110000⟩ = .ok (.dec 0xF0) := by decide

/-- 95_test_vectors.md 2.9: 16 is refused as itself, not as 16 mod 16 (R100). -/
theorem test_decode_refuses_16 : decode ⟨.host, .enc, 16⟩ = .error (.infoOutOfRange 16) := by decide

/-- R112, D5: the host cannot build the codebook, nor reach a sub-block. -/
theorem test_host_cannot_build : decode ⟨.host, .cbbuild, 0⟩ = .error (.notInvocable .host .cbbuild) := by decide

theorem test_host_cannot_reach_par4 : decode ⟨.host, .par4, 1⟩ = .error (.notInvocable .host .par4) := by decide

/-- A ROM index of 16 is refused, not wrapped (R27). -/
theorem test_decode_refuses_index_16 : decode ⟨.host, .romrd, 16⟩ = .error (.romIndexOutOfRange 16) := by decide

/-- The entries that a port reaches (R40). -/
theorem test_ports :
    ([.par4, .par5, .par6, .par7, .gmul, .enc, .cbbuild, .romrd, .hdist, .argmin, .dec] : List Entry).filter
      (fun e => e.level == .port) = [.enc, .romrd, .dec] := by decide

/-- The operations of the decoder module (R1, R40). -/
theorem test_decoder_module :
    ([.par4, .par5, .par6, .par7, .gmul, .enc, .cbbuild, .romrd, .hdist, .argmin, .dec] : List Entry).filter
      (fun e => e.block == .hammingDecoder) = [.hdist, .argmin, .dec] := by decide

/-- A table word is the operation of its width (entry 10). -/
theorem test_table_word : decodeTableWord 16 0xB1D2 = some (.hdist 0xB1 0xD2) := by decide

/-! ### One step of each operation -/

/-- A state with nothing at rest. -/
def start : State := { State.reset with codeword_o := 0x12, p4 := 1, p6 := 1, dist := 5, sel := 3 }

/-- A codebook whose first entry is not a codeword. -/
def alteredCodebook (a : Addr4) : Cw8 := if a = 0 then 0x0F else enc a

/-- The state after an operation. -/
def after (i : Instr) (s : State) : Option State :=
  match exec i s with
  | .next t => some t
  | .fault _ => none
  | .refused _ => none

/-- 95_test_vectors.md 2.1, b0 alone. -/
theorem test_par4_b0 : (after (.par4 0b0001) start).map State.p4 = some 1 := by decide

theorem test_par4_b3 : (after (.par4 0b1000) start).map State.p4 = some 0 := by decide

theorem test_par5_b1 : (after (.par5 0b0010) start).map State.p5 = some 0 := by decide

theorem test_par5_b2 : (after (.par5 0b0100) start).map State.p5 = some 1 := by decide

theorem test_par6_b0 : (after (.par6 0b0001) start).map State.p6 = some 0 := by decide

theorem test_par6_b3 : (after (.par6 0b1000) start).map State.p6 = some 1 := by decide

theorem test_par7_three : (after (.par7 0b0111) start).map State.p7 = some 1 := by decide

theorem test_par7_four : (after (.par7 0b1111) start).map State.p7 = some 0 := by decide

/-- 95_test_vectors.md 2.1: rows 1 and 3. -/
theorem test_gmul_10 : (after (.gmul 10) start).map State.product = some 0x1A := by decide

theorem test_gmul_14 : (after (.gmul 14) start).map State.product = some 0xFE := by decide

/-- 95_test_vectors.md 2.1: 0xC1 with the bits from the other end, 0x1B with the parity low. -/
theorem test_enc_1 : (after (.enc 1) start).map State.codeword_o = some 0xB1 := by decide

theorem test_enc_15 : (after (.enc 15) start).map State.codeword_o = some 0x4F := by decide

/-- CBBUILD's loop, over a list that holds two other words (R65). -/
theorem test_build_loop : Memory.build [(0, 0x0F), (14, 0x00)] = [] := by decide +kernel

/-- R65: ROM[14] = ENC(0b1110) = 0xFE. -/
theorem test_cbbuild_14 : (after .cbbuild start).map (fun t => t.rom.read 14) = some 0xFE := by decide +kernel

/-- 41_codebook_rom.md R68. -/
theorem test_romrd_9 : (after (.romrd 9) start).map State.data_o = some 0x79 := by decide +kernel

/-- 41_codebook_rom.md R68: a codeword, not an empty marker. -/
theorem test_romrd_0 : (after (.romrd 0) start).map State.data_o = some 0x00 := by decide +kernel

/-- 95_test_vectors.md 2.3. -/
theorem test_hdist_ff_fe : (after (.hdist 0xFF 0xFE) start).map State.dist = some 1 := by decide

theorem test_hdist_aa_55 : (after (.hdist 0xAA 0x55) start).map State.dist = some 8 := by decide

/-- 95_test_vectors.md 2.3: equal minima at 13, 14 and 15. -/
theorem test_argmin_first :
    (after (.argmin #v[8, 7, 7, 6, 6, 5, 5, 4, 4, 3, 3, 2, 2, 1, 1, 1]) start).map State.sel = some 13 := by decide

/-- 95_test_vectors.md 2.3: one minimum, at the end. -/
theorem test_argmin_last :
    (after (.argmin #v[8, 8, 8, 8, 8, 8, 8, 8, 8, 8, 8, 8, 8, 8, 8, 7]) start).map State.sel = some 15 := by decide

/-- 95_test_vectors.md 2.6: tied 0, 3 and 7. -/
theorem test_dec_03 : (after (.dec 0x03) start).map State.info_o = some 0 := by decide +kernel

/-- R87, C7: the low 4 bits of the entry, which here are not its index 0. -/
theorem test_dec_other_codebook : decodeWith alteredCodebook 0x0F = 15 := by decide +kernel

/-! ### States and operands that meet the statements' hypotheses -/

/-- A state in the middle of a run: 5 encoded, the word 5 read, 0x51 decoded, and more asked for. -/
def running : State :=
  { State.reset with
    info_i := 5, codeword_o := 0x55, addr_i := 5, data_o := 0x55, received_i := 0x51, info_o := 5, p4 := 1, dist := 8
    pending := [⟨.host, .dec, 0xFF⟩, ⟨.host, .enc, 15⟩] }

/-- The hypothesis of BuiltRomWordsDiffer on its two indices. -/
theorem witness_BuiltRomWordsDiffer : running.rom.read 15 = running.rom.read 15 := rfl

/-- EncIsSystematic's last clause: two encodings with one codeword. -/
theorem witness_EncIsSystematic :
    exec (.enc 15) running = .next (running.driveEncoder 15) ∧
      (running.driveEncoder 15).codeword_o = (running.driveEncoder 15).codeword_o := ⟨rfl, rfl⟩

/-- The invariant, in the middle of a run. -/
theorem witness_Inv : running.Inv :=
  ⟨running.rom.canonical, running.romBuilt, ⟨rfl, by decide +kernel, by decide +kernel⟩, by decide⟩

/-- MinimumDistanceIsThree: two indices at the two ends. -/
theorem witness_MinimumDistanceIsThree : (0 : Addr4) ≠ 15 := by decide

/-- ArgminIsFirstMinimum and DecSelectsNearestEntry on an earlier index: 0 comes before the minimum at 14. -/
theorem witness_earlier_index : (0 : Addr4) < argmin (distances enc 0xFF) := by decide +kernel

/-- A network that is neither a chain nor balanced. -/
def network : SelectorTree :=
  .stage (.stage (.entry 0) (.stage (.stage (.entry 1) (.entry 2)) (.entry 3)))
    (.stage
      (.stage (.stage (.entry 4) (.entry 5)) (.stage (.entry 6) (.stage (.entry 7) (.entry 8))))
      (.stage (.stage (.stage (.entry 9) (.entry 10)) (.entry 11))
        (.stage (.entry 12) (.stage (.entry 13) (.stage (.entry 14) (.entry 15))))))

theorem witness_EverySelectorNetworkIsArgmin : network.entries = indices := by decide

/-- DecIsArgminOfHdist: the distances of 0xFF in R82. -/
theorem witness_DecIsArgminOfHdist (i : Addr4) :
    ∃ t, exec (.hdist 0xFF (running.rom.read i)) running = .next t ∧
      t.dist = (#v[8, 4, 4, 4, 4, 4, 4, 4, 5, 3, 5, 3, 5, 3, 1, 3] : Vector Dist4 16).get i.toFin := by
  refine ⟨_, rfl, ?_⟩
  show hdist 0xFF (running.rom.read i) = _
  rw [Rom.read_eq_enc]
  revert i
  decide

/-- EveryStepKeepsTheInvariant, and the step clause of NoOperationChangesTheRom: the invariant, and a step that
answers. -/
theorem witness_EveryStepKeepsTheInvariant :
    running.Inv ∧ step running = .next ((running.withPending [⟨.host, .enc, 15⟩]).driveDecoder 0xFF) :=
  ⟨witness_Inv, rfl⟩

/-- StepRunsTheDecodedOperation, its first clause. -/
theorem witness_StepRunsTheDecodedOperation :
    running.pending = ⟨.host, .dec, 0xFF⟩ :: [⟨.host, .enc, 15⟩] ∧ decode ⟨.host, .dec, 0xFF⟩ = .ok (.dec 0xFF) := by decide

/-- StepRunsTheDecodedOperation, its second clause, at the widest word. -/
theorem witness_StepRunsTheTableWord :
    decodeTableWord 64 0 = some (.argmin #v[0, 0, 0, 0, 0, 0, 0, 0, 0, 0, 0, 0, 0, 0, 0, 0]) := by decide

theorem witness_IdleStepChangesNothing : start.pending = [] := rfl

/-- WideInformationWordIsRefused and WideRomIndexIsRefused, their first two clauses where they meet. -/
theorem witness_wide_value : 15 < 16 ∧ 15 ≤ 15 := by decide

/-- WideInformationWordIsRefused, its third clause. -/
theorem witness_WideInformationWordIsRefused :
    step (running.ask ⟨.host, .enc, 16⟩) = .refused (.infoOutOfRange 16) := rfl

/-- OnlyMisuseStopsAStep and EveryFittingWordIsLegal: the widest value that fits, and the next one. -/
theorem witness_legal :
    (⟨.host, .dec, 255⟩ : Request).legal ∧ ¬ (⟨.host, .dec, 256⟩ : Request).legal ∧
      ¬ (⟨.hardware, .dec, 255⟩ : Request).legal := by
  unfold Request.legal Request.fits
  decide

/-- HostReachesThePortsAlone: an entry that is no port. -/
theorem witness_HostReachesThePortsAlone : Entry.cbbuild.level ≠ .port := by decide

/-- OperandWordsAreUnique, at the largest operand word of HDIST. -/
theorem witness_OperandWordsAreUnique : decode ⟨.hardware, .hdist, 0xFFFF⟩ = .ok (.hdist 0xFF 0xFF) := by decide

theorem witness_SubBlocksWriteOnlyTheirResult :
    (Instr.hdist 0xAA 0x55).entry ∈ ([.par4, .par5, .par6, .par7, .gmul, .hdist, .argmin] : List Entry) ∧
      exec (.hdist 0xAA 0x55) running = .next (running.withDist (hdist 0xAA 0x55)) := ⟨by decide, rfl⟩

theorem witness_PortOperationsWriteOnlyTheirPorts :
    (Instr.romrd 15).entry ∈ ([.enc, .romrd, .dec] : List Entry) ∧
      exec (.romrd 15) running = .next (running.driveRom 15) := ⟨by decide, rfl⟩

theorem witness_BuildWritesNothingAtRunTime : exec .cbbuild running = .next running := rfl

/-- ResultsDependOnOperandsAndRom: two codebooks that differ in a word that is not read. -/
theorem witness_ResultsDependOnOperandsAndRom :
    (∀ a ∈ (Instr.romrd 1).romReads, alteredCodebook a = enc a) ∧ alteredCodebook 0 ≠ enc 0 := by decide

theorem witness_DifferentEntriesCommute : Instr.cbbuild.entry ≠ (Instr.dec 0xF0).entry := by decide

/-- HistoryDoesNotMatter: DEC before ENC. -/
theorem witness_HistoryDoesNotMatter :
    (∀ r ∈ ([⟨.host, .dec, 0xFF⟩] : List Request), r.legal) ∧
      running.pending = [⟨.host, .dec, 0xFF⟩] ++ [encode (.enc 15)] := by
  refine ⟨?_, rfl⟩
  unfold Request.legal Request.fits
  decide

end Sys2Proof.Tests
end

