-- ==== Sys2Proof/Proofs/Effects.lean ====
section
/-! PROOFS. What an operation does to the state, said once: the state it leaves, its frame, and its result. -/

namespace Sys2Proof.Machine

/-- The state an operation leaves: each arm of `exec` without the outcome around it (`exec_eq_next`). -/
@[simp] def State.apply (s : State) : Instr → State
  | .par4 info => s.withP4 (par4 info)
  | .par5 info => s.withP5 (par5 info)
  | .par6 info => s.withP6 (par6 info)
  | .par7 info => s.withP7 (par7 info)
  | .gmul info => s.withProduct (gmul info)
  | .enc info => s.driveEncoder info
  | .cbbuild => s
  | .romrd addr => s.driveRom addr
  | .hdist a b => s.withDist (hdist a b)
  | .argmin d => s.withSel (argmin fun i => d.get i.toFin)
  | .dec received => s.driveDecoder received

/-- Every operation answers, in every state. -/
theorem exec_eq_next (i : Instr) (s : State) : exec i s = .next (s.apply i) := by
  cases i <;> rfl

theorem eq_apply_of_exec {i : Instr} {s t : State} (h : exec i s = .next t) : t = s.apply i := by
  rw [exec_eq_next] at h
  cases h
  rfl

/-- From one state to another only what an operation at the entry writes has changed: at a port its module's two ports,
at a sub-block its result, at CBBUILD nothing (R18). -/
structure State.FrameAt (e : Entry) (s t : State) : Prop where
  rom : t.rom = s.rom
  pending : t.pending = s.pending
  encoderPort : e ≠ .enc → t.info_i = s.info_i ∧ t.codeword_o = s.codeword_o
  romPort : e ≠ .romrd → t.addr_i = s.addr_i ∧ t.data_o = s.data_o
  decoderPort : e ≠ .dec → t.received_i = s.received_i ∧ t.info_o = s.info_o
  p4 : e ≠ .par4 → t.p4 = s.p4
  p5 : e ≠ .par5 → t.p5 = s.p5
  p6 : e ≠ .par6 → t.p6 = s.p6
  p7 : e ≠ .par7 → t.p7 = s.p7
  product : e ≠ .gmul → t.product = s.product
  dist : e ≠ .hdist → t.dist = s.dist
  sel : e ≠ .argmin → t.sel = s.sel

/-- The frame of every operation (R18, R24): each arm of `State.apply` is an update, whose effect on each field is a
`simp` lemma of Laws/State. -/
theorem State.apply_frameAt (s : State) (i : Instr) : s.FrameAt i.entry (s.apply i) := by
  cases i <;> constructor <;> simp [Instr.entry]

theorem exec_frameAt {i : Instr} {s t : State} (h : exec i s = .next t) : s.FrameAt i.entry t := by
  rw [eq_apply_of_exec h]
  exact s.apply_frameAt i

theorem State.FrameAt.read_eq {e : Entry} {s t : State} (h : s.FrameAt e t) (a : Addr4) :
    t.rom.read a = s.rom.read a := by
  rw [h.rom]

/-- After an operation its result stands at its entry. CBBUILD's is the codebook, which the ROM holds already (R65). -/
theorem State.apply_resultAt (s : State) (i : Instr) :
    (s.apply i).resultAt i.entry = resultFrom s.rom.read i := by
  cases i with
  | cbbuild => simp [State.resultAt, resultFrom, Instr.entry]
  | _ => rfl

/-- Of a codebook a result takes the words that its operation reads, and no others (R34). -/
theorem resultFrom_congr (i : Instr) (cb cb' : Addr4 → Cw8) (h : ∀ a ∈ i.romReads, cb a = cb' a) :
    resultFrom cb i = resultFrom cb' i := by
  cases i with
  | romrd addr => exact congrArg Result.codeword (h addr (List.mem_singleton_self addr))
  | dec received => exact congrArg Result.nibble (decodeWith_congr (fun a => h a (mem_indices a)) received)
  | _ => rfl

/-- A step whose oldest request decodes leaves what its operation makes of the state without the request. -/
theorem step_of_decode {s : State} {r : Request} {rest : List Request} {i : Instr} (hp : s.pending = r :: rest)
    (hd : decode r = .ok i) : step s = .next ((s.withPending rest).apply i) := by
  simp [step, State.take, hp, hd, exec_eq_next]

/-- A step that answers has found nothing asked for, or has run an operation in the state without its request. -/
theorem step_next_cases {s t : State} (h : step s = .next t) :
    t = s ∨ ∃ rest i, t = (s.withPending rest).apply i := by
  rcases step_cases s with ⟨-, hs⟩ | ⟨_, rest, i, -, -, hs⟩ | ⟨_, _, _, -, -, hs⟩
  · rw [hs] at h
    cases h
    exact .inl rfl
  · exact .inr ⟨rest, i, eq_apply_of_exec (hs ▸ h)⟩
  · rw [hs] at h
    cases h

end Sys2Proof.Machine
end

