-- ==== Sys2Proof/Proofs/Frames.lean ====
section
/-! PROOFS. The ROM, the frames, and what a result depends on: O29, O33, O42, O43, O44 and O45. -/

namespace Sys2Proof.Machine

/-- Settles O42: the frame of an operation, at the seven entries that are no port and not CBBUILD. -/
theorem subBlocksWriteOnlyTheirResult : Obligations.SubBlocksWriteOnlyTheirResult := by
  intro i s t he h
  have hf := exec_frameAt h
  obtain ⟨hinfo, hcodeword⟩ := hf.encoderPort (ne_of_mem_of_not_mem he (by decide))
  obtain ⟨haddr, hdata⟩ := hf.romPort (ne_of_mem_of_not_mem he (by decide))
  obtain ⟨hreceived, hresult⟩ := hf.decoderPort (ne_of_mem_of_not_mem he (by decide))
  exact ⟨hf.rom, hf.read_eq, hinfo, hcodeword, haddr, hdata, hreceived, hresult, hf.pending, hf.p4, hf.p5, hf.p6, hf.p7,
    hf.product, hf.dist, hf.sel⟩

/-- Settles O43: the frame of an operation, at the three ports, where no sub-block's result is written. -/
theorem portOperationsWriteOnlyTheirPorts : Obligations.PortOperationsWriteOnlyTheirPorts := by
  intro i s t he h
  have hf := exec_frameAt h
  have hne {e : Entry} (hmem : e ∉ ([.enc, .romrd, .dec] : List Entry)) : i.entry ≠ e := ne_of_mem_of_not_mem he hmem
  exact ⟨hf.rom, hf.read_eq, hf.encoderPort, hf.romPort, hf.decoderPort, hf.p4 (hne (by decide)),
    hf.p5 (hne (by decide)), hf.p6 (hne (by decide)), hf.p7 (hne (by decide)), hf.product (hne (by decide)),
    hf.dist (hne (by decide)), hf.sel (hne (by decide)), hf.pending⟩

/-- Settles O45: the result of an operation stands at its entry, and takes of a codebook the words read. -/
theorem resultsDependOnOperandsAndRom : Obligations.ResultsDependOnOperandsAndRom :=
  ⟨fun i s => ⟨s.apply i, exec_eq_next i s, s.apply_resultAt i⟩, resultFrom_congr⟩

/-- Settles O29: the ROM is in the frame of every operation, and of a step, which runs at most one. -/
theorem noOperationChangesTheRom : Obligations.NoOperationChangesTheRom := by
  refine ⟨fun i s => ?_, fun s t h => ?_⟩
  · have hf := s.apply_frameAt i
    exact ⟨s.apply i, exec_eq_next i s, hf.rom, hf.read_eq⟩
  · rcases step_next_cases h with rfl | ⟨rest, i, rfl⟩
    · rfl
    · exact ((s.withPending rest).apply_frameAt i).rom

/-- Settles O33: of the three things a step can do, two take a request. -/
theorem idleStepChangesNothing : Obligations.IdleStepChangesNothing := by
  intro s hp
  rcases step_cases s with ⟨-, hs⟩ | ⟨r, rest, _, hr, -, -⟩ | ⟨r, rest, _, hr, -, -⟩
  · exact hs
  · simp [hp] at hr
  · simp [hp] at hr

/-- Settles O44: CBBUILD answers the state it was given. -/
theorem buildWritesNothingAtRunTime : Obligations.BuildWritesNothingAtRunTime := by
  intro s t h
  have ht : t = s := eq_apply_of_exec h
  simp [ht]

end Sys2Proof.Machine
end

