-- ==== Sys2Proof/Proofs/Invariant.lean ====
section
/-! PROOFS. The invariant holds at reset and every step keeps it: O30 and O31. -/

namespace Sys2Proof.Machine

/-- An operation at a port settles its own output; every other leaves the ports and the ROM alone (R16). -/
theorem State.Settled.apply {s : State} (h : s.Settled) (i : Instr) : (s.apply i).Settled := by
  cases i with
  | enc info => exact ⟨rfl, h.rom, h.decoder⟩
  | romrd addr => exact ⟨h.encoder, rfl, h.decoder⟩
  | dec received => exact ⟨h.encoder, h.rom, rfl⟩
  | _ => exact ⟨h.encoder, h.rom, h.decoder⟩

/-- HDIST, which alone writes the distance, writes at most 8 (R80). -/
theorem State.apply_dist_le {s : State} (h : s.dist.toNat ≤ 8) (i : Instr) : (s.apply i).dist.toNat ≤ 8 := by
  cases i with
  | hdist a b =>
    calc (hdist a b).toNat = popcount8 (a ^^^ b) := hdist_toNat a b
      _ ≤ 8 := popcount8_le _
  | _ => exact h

/-- Of the invariant only the ports and the distance are more than the ROM's type says. -/
theorem State.inv_iff (s : State) : s.Inv ↔ s.Settled ∧ s.dist.toNat ≤ 8 :=
  ⟨fun h => ⟨h.settled, h.distance⟩, fun ⟨hs, hd⟩ => ⟨s.rom.canonical, s.romBuilt, hs, hd⟩⟩

theorem State.Inv.withPending {s : State} (h : s.Inv) (q : List Request) : (s.withPending q).Inv :=
  (State.inv_iff _).2 ⟨State.withPending_settled q h.settled, h.distance⟩

theorem State.Inv.apply {s : State} (h : s.Inv) (i : Instr) : (s.apply i).Inv :=
  (State.inv_iff _).2 ⟨h.settled.apply i, State.apply_dist_le h.distance i⟩

/-- Settles O30: taking a request keeps the invariant, and so does running its operation. -/
theorem everyStepKeepsTheInvariant : Obligations.EveryStepKeepsTheInvariant := by
  intro s t hinv h
  rcases step_next_cases h with rfl | ⟨rest, i, rfl⟩
  · exact hinv
  · exact (hinv.withPending rest).apply i

/-- At reset the three outputs are ENC(0), the word at 0 and DEC(0x00) (R17). -/
theorem State.reset_settled : State.reset.Settled where
  encoder := by decide
  rom := (State.reset.romBuilt 0).symm
  decoder := by
    have hdec : decodeWith enc 0x00 = 0 := by decide +kernel
    rw [State.cb, Rom.read_funext]
    exact hdec.symm

/-- Settles O31: the outputs at reset are settled, and the distance is 0. -/
theorem resetMeetsTheInvariant : Obligations.ResetMeetsTheInvariant :=
  ⟨(State.inv_iff _).2 ⟨State.reset_settled, Nat.zero_le 8⟩, rfl⟩

end Sys2Proof.Machine
end

