-- ==== Sys2Proof/Proofs/Encoding.lean ====
section
/-! PROOFS. The request for an operation is legal and is read as that operation. -/

namespace Sys2Proof

/-- The request for an operation is made by its agent, and its word fits: one lemma of `OperandFits` a constructor. -/
theorem encode_legal (i : Instr) : (encode i).legal := by
  refine ⟨rfl, ?_⟩
  cases i with
  | par4 info => exact Laws.OperandFits.par4 info
  | par5 info => exact Laws.OperandFits.par5 info
  | par6 info => exact Laws.OperandFits.par6 info
  | par7 info => exact Laws.OperandFits.par7 info
  | gmul info => exact Laws.OperandFits.gmul info
  | enc info => exact Laws.OperandFits.enc info
  | cbbuild => exact Laws.OperandFits.cbbuild
  | romrd addr => exact Laws.OperandFits.romrd addr
  | hdist a b => exact Laws.OperandFits.hdist a b
  | argmin d => exact Laws.OperandFits.argmin d
  | dec received => exact Laws.OperandFits.dec received

theorem unpackNibbles_packNibbles (l : List (BitVec 4)) : unpackNibbles l.length (packNibbles l) = l := by
  induction l with
  | nil => rfl
  | cons d l ih =>
    have hd : d.toNat < 16 := d.isLt
    have hlow : BitVec.ofNat 4 (d.toNat + 16 * packNibbles l) = d := by
      apply BitVec.eq_of_toNat_eq
      simp only [BitVec.toNat_ofNat]
      omega
    have hhigh : (d.toNat + 16 * packNibbles l) / 16 = packNibbles l := by omega
    simp only [List.length_cons, packNibbles, unpackNibbles, hlow, hhigh, ih]

@[simp] theorem unpackDistances_packNibbles (d : Vector Dist4 16) : unpackDistances (packNibbles d.toList) = d := by
  have h := unpackNibbles_packNibbles d.toList
  rw [Vector.length_toList] at h
  apply Vector.toList_inj.mp
  simpa [unpackDistances, Vector.toList] using h

/-- Reading an operation's own operand word gives the operation back: HDIST's two bytes and ARGMIN's nibbles are
taken apart as they were put together, and every other word is its operand (R35, R45). -/
@[simp] theorem decodeFields_operandWord (i : Instr) : decodeFields i.entry (operandWord i) = i := by
  cases i with
  | hdist a b =>
    have ha : a.toNat < 256 := a.isLt
    have hb : b.toNat < 256 := b.isLt
    have hhigh : (256 * a.toNat + b.toNat) / 256 = a.toNat := by omega
    have hlow : BitVec.ofNat 8 (256 * a.toNat + b.toNat) = b := by
      apply BitVec.eq_of_toNat_eq
      simp only [BitVec.toNat_ofNat]
      omega
    simp [decodeFields, operandWord, Instr.entry, hhigh, hlow]
  | _ => simp [decodeFields, operandWord, Instr.entry]

/-- The request that asks for an operation decodes to it. -/
@[simp] theorem decode_encode (i : Instr) : decode (encode i) = .ok i := by
  rw [Machine.decode_legal (encode_legal i)]
  exact congrArg Except.ok (decodeFields_operandWord i)

end Sys2Proof
end

