-- ==== Sys2Proof/Proofs/History.lean ====
section
/-! PROOFS. A run over a list of requests, and the result of its last operation: O47. -/

namespace Sys2Proof.Machine

theorem core_run_succ {s t : State} (h : step s = .next t) (k : Nat) :
    Sys2Proof.core.run (k + 1) s = Sys2Proof.core.run k t := by
  have hs : Sys2Proof.core.step s = .next t := h
  simp only [Host.Core.run, hs]

/-- A run over legal requests and one operation more ends in what that operation makes of some state that has nothing
left to do. -/
theorem run_legal_then_encode (before : List Request) (i : Instr) (s : State) (hl : ∀ r ∈ before, r.legal)
    (hp : s.pending = before ++ [encode i]) :
    ∃ u : State, Sys2Proof.core.run (before.length + 1) s = .next (u.apply i) ∧ u.pending = [] := by
  induction before generalizing s with
  | nil => exact ⟨s.withPending [], core_run_succ (step_of_decode hp (decode_encode i)) 0, rfl⟩
  | cons r before ih =>
    obtain ⟨hr, hrest⟩ := List.forall_mem_cons.mp hl
    have hstep := step_of_decode hp (decode_legal hr)
    rw [List.length_cons, core_run_succ hstep]
    exact ih _ hrest (State.apply_frameAt _ _).pending

/-- Settles O47: the last operation's result is the function of its operands and the ROM that it is after reset, for
every state holds the same ROM. -/
theorem historyDoesNotMatter : Obligations.HistoryDoesNotMatter := by
  intro before i s hl hp
  obtain ⟨u, hrun, hu⟩ := run_legal_then_encode before i s hl hp
  have hrom : u.rom = State.reset.rom := u.rom.eq_elaborate
  refine ⟨u.apply i, State.reset.apply i, hrun, (u.apply_frameAt i).pending.trans hu, State.romBuilt _,
    exec_eq_next i State.reset, ?_⟩
  calc (u.apply i).resultAt i.entry = resultFrom u.rom.read i := u.apply_resultAt i
    _ = resultFrom State.reset.rom.read i := by rw [hrom]
    _ = (State.reset.apply i).resultAt i.entry := (State.reset.apply_resultAt i).symm

end Sys2Proof.Machine
end


section
/-! PROOFS. A step on the request that has just been asked for, and the ROM's index port: O35. -/

namespace Sys2Proof.Machine

/-- A value wider than its entry's operand word is rejected by the entry's own name for it, though its agent may invoke
the operation. -/
theorem decode_of_not_fits {r : Request} (ha : r.agent = r.entry.agent) (hw : ¬ r.fits) :
    decode r = .error (rejectAt r.entry r.word) := by
  simp only [decode, if_pos ha]
  exact if_neg hw

/-- A legal request, asked for next, runs as the operation its word stands for, in the state before it was asked. -/
theorem step_ask_of_legal (s : State) {r : Request} (h : r.legal) :
    step (s.ask r) = exec (decodeFields r.entry r.word) s := by
  simp only [step, State.take_ask, decode_legal h]

/-- A rejected request, asked for next, stops the step under the name of its rejection. -/
theorem step_ask_of_error (s : State) {r : Request} {e : Reject} (h : decode r = .error e) :
    step (s.ask r) = .refused (refusalOf e) := by
  simp only [step, State.take_ask, h]

/-- Settles O35: an index fits ROMRD's operand word just when it is below 16 = 2 ^ 4, and the step refuses it or reads
it accordingly. -/
theorem wideRomIndexIsRefused : Obligations.WideRomIndexIsRefused := by
  have hfits (v : Nat) : (⟨.host, .romrd, v⟩ : Request).fits ↔ v < 16 := Iff.rfl
  refine ⟨fun s v hv => ?_, fun s v hv => ?_⟩
  · have hwide : ¬ (⟨.host, .romrd, v⟩ : Request).fits := by
      rw [hfits]
      omega
    exact step_ask_of_error s (decode_of_not_fits rfl hwide)
  · have hlegal : (⟨.host, .romrd, v⟩ : Request).legal := ⟨rfl, (hfits v).2 (by omega)⟩
    exact step_ask_of_legal s hlegal

end Sys2Proof.Machine
end


section
/-! PROOFS. A request and the operation it is read as determine each other: O38, O39, O40, O41; and the step runs that
operation: O32. -/

namespace Sys2Proof

/-- Settles O38: the request for an operation is legal, so the decoder reads its operand word, which is taken apart into
the operands that it was put together from. -/
theorem decodingInvertsTheOperandWord : Obligations.DecodingInvertsTheOperandWord := decode_encode

/-- A word that n nibbles can hold is put together again from its n lowest nibbles. -/
theorem packNibbles_unpackNibbles {n w : Nat} (h : w < 16 ^ n) : packNibbles (unpackNibbles n w) = w := by
  induction n generalizing w with
  | zero =>
    have hw : w = 0 := by simpa using h
    exact hw.symm
  | succ n ih =>
    have hdiv : w / 16 < 16 ^ n := by
      rw [Nat.pow_succ] at h
      omega
    simp only [unpackNibbles, packNibbles, ih hdiv, BitVec.toNat_ofNat]
    omega

theorem packNibbles_unpackDistances {w : Nat} (h : w < 16 ^ 16) : packNibbles (unpackDistances w).toList = w :=
  packNibbles_unpackNibbles h

/-- A word that is read at an entry stands for an operation of that entry. -/
@[simp] theorem entry_decodeFields (e : Entry) (w : Nat) : (decodeFields e w).entry = e := by
  cases e <;> rfl

/-- Every bit of a word that fits its entry comes back from the operation it stands for: HDIST's two bytes and ARGMIN's
nibbles make up the word, and every other word is its one operand (R38, R45). -/
theorem operandWord_decodeFields (e : Entry) (w : Nat) (h : w < 2 ^ e.width) :
    operandWord (decodeFields e w) = w := by
  cases e with
  | cbbuild =>
    have hw : w < 1 := h
    exact (Nat.lt_one_iff.mp hw).symm
  | hdist =>
    have hw : w < 65536 := h
    simp only [decodeFields, operandWord, BitVec.toNat_ofNat]
    omega
  | argmin => exact packNibbles_unpackDistances h
  | _ => exact Nat.mod_eq_of_lt h

/-- Everything the decoder accepts, and as what: the legal requests, each as the operation of its entry and word. -/
theorem decode_eq_ok_iff {r : Request} {i : Instr} :
    decode r = .ok i ↔ r.legal ∧ decodeFields r.entry r.word = i := by
  constructor
  · intro h
    have hl : r.legal := Machine.legal_of_decode h
    rw [Machine.decode_legal hl] at h
    exact ⟨hl, Except.ok.inj h⟩
  · rintro ⟨hl, rfl⟩
    exact Machine.decode_legal hl

/-- A legal request is the one that asks for the operation of its entry and word. -/
theorem encode_decodeFields {r : Request} (h : r.legal) : encode (decodeFields r.entry r.word) = r := by
  obtain ⟨ha, hw⟩ := h
  rw [encode, entry_decodeFields, operandWord_decodeFields r.entry r.word hw, ← ha]

/-- Settles O39: the decoder accepts legal requests alone, and the encoder gives back the agent, entry and word of each. -/
theorem operandWordsAreUnique : Obligations.OperandWordsAreUnique := by
  intro r i h
  obtain ⟨hl, rfl⟩ := decode_eq_ok_iff.mp h
  exact encode_decodeFields hl

/-- Settles O40: a legal request is read as the operation of its entry and word, which is one of that entry. -/
theorem everyFittingWordIsLegal : Obligations.EveryFittingWordIsLegal := by
  intro r
  constructor
  · intro hl
    exact ⟨decodeFields r.entry r.word, Machine.decode_legal hl, entry_decodeFields _ _⟩
  · rintro ⟨i, hd, -⟩
    exact Machine.legal_of_decode hd

/-- Settles O41: each of the seven closed words is read by evaluation, ARGMIN's 16 nibbles from d0 up. -/
theorem writtenOutWordsDecode : Obligations.WrittenOutWordsDecode := by
  unfold Obligations.WrittenOutWordsDecode
  decide

/-- A table word stands for the operation that its request decodes to. -/
theorem decodeTableWord_eq_some_iff {nbits w : Nat} {i : Instr} :
    decodeTableWord nbits w = some i ↔ decode (tableRequest nbits w) = .ok i := by
  unfold decodeTableWord
  cases decode (tableRequest nbits w) <;> simp

end Sys2Proof

namespace Sys2Proof.Machine

/-- A step whose oldest request decodes is the operation's own meaning in the state without the request. -/
theorem step_eq_exec_of_decode {s : State} {r : Request} {rest : List Request} {i : Instr} (hp : s.pending = r :: rest)
    (hd : decode r = .ok i) : step s = exec i (s.withPending rest) :=
  (step_of_decode hp hd).trans (exec_eq_next i _).symm

/-- Settles O32: the first clause is the step at a request that decodes; the second is that step at the table word's
request, without which the state is the one before it was asked for. -/
theorem stepRunsTheDecodedOperation : Obligations.StepRunsTheDecodedOperation := by
  refine ⟨fun s r rest i hp hd => step_eq_exec_of_decode hp hd, fun s nbits w i ht => ?_⟩
  have hd : decode (tableRequest nbits w) = .ok i := decodeTableWord_eq_some_iff.mp ht
  exact step_eq_exec_of_decode (s := s.ask (tableRequest nbits w)) rfl hd

end Sys2Proof.Machine
end


section
/-! PROOFS. The parity bits, the generator-matrix product and the encoder: O1 to O9. -/

namespace Sys2Proof.Machine

/-! ### The places of a codeword (R36)

A one-bit field of the concatenation lies in the one of its parts that the widths of the parts after it lead to; the
widths stay sums for that (`-Nat.reduceAdd`). -/

theorem extractLsb'_enc_4 (info : Info4) : (enc info).extractLsb' 4 1 = par4 info := by
  simp [-Nat.reduceAdd, enc, assembleCodeword, BitVec.extractLsb'_append_eq_ite]

theorem extractLsb'_enc_5 (info : Info4) : (enc info).extractLsb' 5 1 = par5 info := by
  simp [-Nat.reduceAdd, enc, assembleCodeword, BitVec.extractLsb'_append_eq_ite]

theorem extractLsb'_enc_6 (info : Info4) : (enc info).extractLsb' 6 1 = par6 info := by
  simp [-Nat.reduceAdd, enc, assembleCodeword, BitVec.extractLsb'_append_eq_ite]

theorem extractLsb'_enc_7 (info : Info4) : (enc info).extractLsb' 7 1 = par7 info := by
  simp [-Nat.reduceAdd, enc, assembleCodeword, BitVec.extractLsb'_append_eq_ite]

/-- A codeword's low 4 bits are its information word (R37, R57). -/
@[simp] theorem infoField_enc (info : Info4) : infoField (enc info) = info := infoField_assemble _ _ _ _ info

/-- No two information words have one codeword: its information field tells them apart. -/
theorem enc_injective : Function.Injective enc := Function.LeftInverse.injective infoField_enc

/-- A field of one bit that holds a truth value is that value, read as a bit of the word. -/
theorem getElem_of_extractLsb'_eq_ofBool {w : Cw8} {j : Nat} (hj : j < 8) {b : Bool}
    (h : w.extractLsb' j 1 = BitVec.ofBool b) : w[j] = b := by
  have h0 : (w.extractLsb' j 1)[0] = (BitVec.ofBool b)[0] := by rw [h]
  simpa [hj] using h0

/-! ### The parity operations (R51 to R54)

Each writes its bit alone; the information words at which the bit is 1 are found by trying all 16. -/

/-- Settles O1: PAR4's bit is at place 4 of the codeword. -/
theorem par4XorsBits01 : Obligations.Par4XorsBits01 := by
  intro info s
  refine ⟨exec_eq_next (.par4 info) s, ?_, getElem_of_extractLsb'_eq_ofBool (by decide) (extractLsb'_enc_4 info)⟩
  revert info
  decide

/-- Settles O2: PAR5's bit is at place 5 of the codeword. -/
theorem par5XorsBits02 : Obligations.Par5XorsBits02 := by
  intro info s
  refine ⟨exec_eq_next (.par5 info) s, ?_, getElem_of_extractLsb'_eq_ofBool (by decide) (extractLsb'_enc_5 info)⟩
  revert info
  decide

/-- Settles O3: PAR6's bit is at place 6 of the codeword. -/
theorem par6XorsBits123 : Obligations.Par6XorsBits123 := by
  intro info s
  refine ⟨exec_eq_next (.par6 info) s, ?_, getElem_of_extractLsb'_eq_ofBool (by decide) (extractLsb'_enc_6 info)⟩
  revert info
  decide

/-- The xor of four bits is their weight modulo 2. -/
theorem xor_four_eq_weight_mod_two : ∀ a b c d : Bool,
    (a ^^ b ^^ c ^^ d) = ((a.toNat + b.toNat + c.toNat + d.toNat) % 2 == 1) := by decide

/-- Settles O4: PAR7's bit is at place 7 of the codeword, and is the weight of the four information bits modulo 2. -/
theorem par7IsInfoParity : Obligations.Par7IsInfoParity := by
  intro info s
  refine ⟨exec_eq_next (.par7 info) s, xor_four_eq_weight_mod_two _ _ _ _, ?_,
    getElem_of_extractLsb'_eq_ofBool (by decide) (extractLsb'_enc_7 info)⟩
  revert info
  decide

/-- Settles O8: each high bit is the field of ENC's codeword at which its parity operation's result was put. -/
theorem parityEquationsHoldSeparately : Obligations.ParityEquationsHoldSeparately := by
  intro info s
  exact ⟨_, _, _, _, _, exec_eq_next (.enc info) s, exec_eq_next (.par4 info) s, exec_eq_next (.par5 info) s,
    exec_eq_next (.par6 info) s, exec_eq_next (.par7 info) s, extractLsb'_enc_4 info, extractLsb'_enc_5 info,
    extractLsb'_enc_6 info, extractLsb'_enc_7 info⟩

/-! ### The generator-matrix product (R55) -/

theorem getLsbD_selectRow (b : Bool) (row : Cw8) (j : Nat) :
    (selectRow b row).getLsbD j = (b && row.getLsbD j) := by
  cases b <;> simp [selectRow]

theorem selectRow_xor (b c : Bool) (row : Cw8) : selectRow (b ^^ c) row = selectRow b row ^^^ selectRow c row := by
  cases b <;> cases c <;> simp [selectRow]

/-- Column j of the product: the entries of the column that the information bits select, added over GF(2). -/
theorem getLsbD_gmul (info : Info4) (j : Nat) :
    (gmul info).getLsbD j =
      ((info[0] && (generatorRow 0).getLsbD j) ^^ (info[1] && (generatorRow 1).getLsbD j) ^^
        (info[2] && (generatorRow 2).getLsbD j) ^^ (info[3] && (generatorRow 3).getLsbD j)) := by
  simp [gmul, getLsbD_selectRow, generatorRow]

/-- A single information bit selects its row alone. -/
theorem gmul_one_shiftLeft : ∀ k : Fin 4, gmul (1#4 <<< k.val) = generatorRow k := by decide

/-- The product is linear, because the selection of each row is. -/
theorem gmul_xor (a b : Info4) : gmul (a ^^^ b) = gmul a ^^^ gmul b := by
  simp only [gmul, BitVec.getElem_xor, selectRow_xor]
  ac_rfl

/-- Settles O5: the columns for every information word, then the words that select no row, one row and two rows. -/
theorem gmulIsMatrixProduct : Obligations.GmulIsMatrixProduct := by
  refine ⟨fun info s => ⟨gmul info, exec_eq_next (.gmul info) s, fun j => getLsbD_gmul info j⟩,
    fun s => exec_eq_next (.gmul 0) s, fun k s => ?_, fun s => exec_eq_next (.gmul 0b0101) s⟩
  rw [← gmul_one_shiftLeft k]
  exact exec_eq_next (.gmul _) s

/-! ### The encoder (R56, R57, R60) -/

/-- The matrix is that of the four parity equations and of the information bits' places, on each of the 16 words. -/
theorem enc_eq_gmul : ∀ info : Info4, enc info = gmul info := by decide

theorem enc_xor (a b : Info4) : enc (a ^^^ b) = enc a ^^^ enc b := by
  simp only [enc_eq_gmul, gmul_xor]

/-- Settles O6: ENC drives its two ports with the assembled word, which is the product; three words are evaluated. -/
theorem encAssemblesCodeword : Obligations.EncAssemblesCodeword := by
  refine ⟨fun info s => exec_eq_next (.enc info) s, fun info s => ?_, fun s => exec_eq_next (.enc 0) s,
    fun s => exec_eq_next (.enc 15) s, fun s => exec_eq_next (.enc 0b0101) s⟩
  exact ⟨_, _, exec_eq_next (.enc info) s, exec_eq_next (.gmul info) s, enc_eq_gmul info⟩

/-- Settles O7: the information field of the codeword gives the operand back. -/
theorem encIsSystematic : Obligations.EncIsSystematic := by
  intro info s
  have hlow : (enc info).extractLsb' 0 4 = info := infoField_enc info
  refine ⟨s.apply (.enc info), exec_eq_next (.enc info) s, hlow, ?_, fun info' t' h hc => ?_⟩
  · have hval := congrArg BitVec.toNat hlow
    simpa using hval
  · rw [eq_apply_of_exec h] at hc
    exact enc_injective hc

/-- Settles O9: ENC is linear as the matrix product is, and a distance is the weight of a difference. -/
theorem encIsLinear : Obligations.EncIsLinear := by
  refine ⟨fun a b s => ?_, fun s => ⟨s.apply (.enc 0), exec_eq_next (.enc 0) s, rfl⟩⟩
  refine ⟨_, _, _, _, exec_eq_next (.enc a) s, exec_eq_next (.enc b) s, exec_eq_next (.enc (a ^^^ b)) s,
    exec_eq_next (.hdist (enc a) (enc b)) s, enc_xor a b, ?_⟩
  calc (hdist (enc a) (enc b)).toNat = popcount8 (enc a ^^^ enc b) := hdist_toNat _ _
    _ = popcount8 (enc (a ^^^ b)) := by rw [enc_xor]

end Sys2Proof.Machine
end


section
/-! PROOFS. The codebook ROM, the distances between codewords, and how the received words lie around them: O10 to O16,
O25 and O28. -/

namespace Sys2Proof.Machine

/-! ### The words of the ROM (R65 to R70, R72) -/

/-- Settles O10: ROMRD drives its two ports; the three words are codewords, which are evaluated. -/
theorem romrdReadsTheWord : Obligations.RomrdReadsTheWord := by
  refine ⟨fun addr s => exec_eq_next (.romrd addr) s, fun s => ?_⟩
  simp only [Rom.read_eq_enc]
  decide

/-- Settles O11: CBBUILD leaves the state as it is, whose ROM is the only built one. -/
theorem cbbuildStoresEveryCodeword : Obligations.CbbuildStoresEveryCodeword := by
  intro s
  exact ⟨s, exec_eq_next .cbbuild s, s.rom.read_eq_enc, s.rom.read_eq_enc 14, s.rom.eq_elaborate⟩

/-- Settles O12: the state that CBBUILD leaves is the one it was given. -/
theorem rebuildingChangesNothing : Obligations.RebuildingChangesNothing := exec_eq_next .cbbuild

/-- Settles O13: every ROM is read as the encoder, which is evaluated at the 16 indices. -/
theorem builtRomHoldsTheTable : Obligations.BuiltRomHoldsTheTable := by
  intro s
  simp only [Rom.read_funext]
  decide

/-- Settles O14: the word read is the codeword, whose information field is the index. -/
theorem romrdAgreesWithEnc : Obligations.RomrdAgreesWithEnc := by
  intro a s
  have hread : s.rom.read a = enc a := s.rom.read_eq_enc a
  have hlow : infoField (s.rom.read a) = a := by rw [hread, infoField_enc]
  exact ⟨_, _, exec_eq_next (.romrd a) s, exec_eq_next (.enc a) s, hread, hlow⟩

/-- Settles O15: the ROM's words are codewords, and no two information words have one codeword. -/
theorem builtRomWordsDiffer : Obligations.BuiltRomWordsDiffer := by
  intro s a b h
  simp only [Rom.read_eq_enc] at h
  exact enc_injective h

/-! ### The distances between codewords (R71) -/

/-- Where a function takes each value of a list equally often, counting its values is counting in that list. -/
theorem countP_of_map_perm_replicate {α β : Type} {l : List α} {f : α → β} {n : Nat} {values : List β}
    (h : (l.map f).Perm (List.replicate n values).flatten) (P : β → Bool) :
    l.countP (fun a => P (f a)) = n * values.countP P :=
  calc l.countP (fun a => P (f a)) = (l.map f).countP P := List.countP_map.symm
    _ = (List.replicate n values).flatten.countP P := h.countP_eq P
    _ = n * values.countP P := by
      simp only [List.countP_flatten, List.map_replicate, List.sum_replicate_nat]

/-- The code is linear, so the distance of two codewords is the weight of a codeword (R60). -/
theorem hdist_enc_toNat (a b : Info4) : (hdist (enc a) (enc b)).toNat = popcount8 (enc (a ^^^ b)) := by
  rw [hdist_toNat, enc_xor]

theorem three_le_popcount8_enc : ∀ c : Info4, c ≠ 0 → 3 ≤ popcount8 (enc c) := by decide

/-- Each of the 15 nonzero information words is the difference of 8 of the 120 pairs. -/
theorem map_xor_indexPairs_perm :
    (indexPairs.map fun p => p.1 ^^^ p.2).Perm (List.replicate 8 laterIndices).flatten := by
  decide +kernel

/-- There are 8 times as many pairs of codewords at a nonzero distance as there are codewords of that weight. -/
theorem countP_indexPairs_hdist (k : Nat) :
    indexPairs.countP (fun p => (hdist (enc p.1) (enc p.2)).toNat == k) =
      8 * laterIndices.countP fun c => popcount8 (enc c) == k := by
  simp only [hdist_enc_toNat]
  exact countP_of_map_perm_replicate map_xor_indexPairs_perm fun c => popcount8 (enc c) == k

/-- Settles O16: the weights of the 15 nonzero codewords give the least distance and the counts. -/
theorem minimumDistanceIsThree : Obligations.MinimumDistanceIsThree := by
  refine ⟨fun a b hab => ?_, by decide, ?_⟩
  · rw [hdist_enc_toNat]
    exact three_le_popcount8_enc (a ^^^ b) (BitVec.xor_eq_zero_iff.not.mpr hab)
  · simp only [countP_indexPairs_hdist]
    decide

/-! ### The received words around the codewords (R74)

Adding a codeword to a received word only permutes its distances from the 16 codewords. So how a word lies around them
depends on its parity error alone, and each of the 16 parity errors is that of 16 words. -/

theorem map_xor_indices_perm : ∀ a : Addr4, (indices.map (a ^^^ ·)).Perm indices := by decide +kernel

theorem map_popcount8_xor_enc_perm (r : Rx8) (a : Info4) :
    (indices.map fun i => popcount8 (r ^^^ enc a ^^^ enc i)).Perm (indices.map fun i => popcount8 (r ^^^ enc i)) := by
  have h := (map_xor_indices_perm a).map fun i => popcount8 (r ^^^ enc i)
  simpa only [List.map_map, Function.comp_def, enc_xor, BitVec.xor_assoc] using h

theorem nearestDistance_xor_enc (r : Rx8) (a : Info4) : nearestDistance (r ^^^ enc a) = nearestDistance r :=
  (map_popcount8_xor_enc_perm r a).foldl_eq 8

theorem nearestCount_eq_count (r : Rx8) :
    nearestCount r = (indices.map fun i => popcount8 (r ^^^ enc i)).count (nearestDistance r) := by
  simp only [nearestCount, List.count, List.countP_map, Function.comp_def]

theorem nearestCount_xor_enc (r : Rx8) (a : Info4) : nearestCount (r ^^^ enc a) = nearestCount r := by
  simp only [nearestCount_eq_count, nearestDistance_xor_enc]
  exact (map_popcount8_xor_enc_perm r a).count_eq _

/-- The parity bits in which a received word differs from the codeword of its own information bits. -/
def parityError (r : Rx8) : Rx8 := r ^^^ enc (infoField r)

theorem nearestDistance_parityError (r : Rx8) : nearestDistance (parityError r) = nearestDistance r :=
  nearestDistance_xor_enc r (infoField r)

theorem nearestCount_parityError (r : Rx8) : nearestCount (parityError r) = nearestCount r :=
  nearestCount_xor_enc r (infoField r)

/-- The 16 words without an information bit. -/
def parityErrors : List Rx8 := indices.map (· ++ 0#4)

theorem map_parityError_perm :
    (receivedWords.map parityError).Perm (List.replicate 16 parityErrors).flatten := by
  decide +kernel

/-- There are 16 times as many received words of a class as there are parity errors of it. -/
theorem countP_receivedWords (p : Nat × Nat) :
    receivedWords.countP (fun r => (nearestDistance r, nearestCount r) == p) =
      16 * parityErrors.countP fun e => (nearestDistance e, nearestCount e) == p := by
  have h := countP_of_map_perm_replicate map_parityError_perm fun e => (nearestDistance e, nearestCount e) == p
  simpa only [nearestDistance_parityError, nearestCount_parityError] using h

/-- Settles O25: the classes of the 16 parity errors are evaluated, and 16 received words have each. -/
theorem censusOfReceivedWords : Obligations.CensusOfReceivedWords := by
  unfold Obligations.CensusOfReceivedWords
  constructor
  · rw [receivedWords, List.length_map, List.length_range]
  · simp only [countP_receivedWords]
    decide +kernel

/-! ### Two flipped bits (R73) -/

/-- DEC, on each word of a list: the word stands at the input port, and at the output port what the decoder makes of it
with the codewords. -/
theorem map_exec_dec (s : State) (l : List Rx8) :
    l.map (fun r => exec (.dec r) s) =
      (l.map fun r => (r, decodeWith enc r)).map fun p => .next { s with received_i := p.1, info_o := p.2 } := by
  simp [exec_eq_next, State.driveDecoder_eq]

/-- Settles O28: the decoder is evaluated on the six words. -/
theorem twoBitErrorsAreNotPromised : Obligations.TwoBitErrorsAreNotPromised := by
  intro s
  rw [map_exec_dec]
  exact congrArg (List.map _) (by decide +kernel)

end Sys2Proof.Machine
end


section
/-! PROOFS. The distance calculator, the argmin selector and the decoder: O17 to O24, O26 and O27. -/

namespace Sys2Proof.Machine

/-! ### The distance calculator (R80) -/

theorem popcount8_eq_countP (w : BitVec 8) : popcount8 w = (List.range 8).countP w.getLsbD := by
  simp [popcount8, Bool.toNat, Bool.cond_eq_ite, List.range_succ, List.countP_cons]
  ac_rfl

/-- Each position in which two words differ is a bit of their xor. -/
theorem hdist_toNat_eq_countP (a b : BitVec 8) :
    (hdist a b).toNat = (List.range 8).countP (fun k => a.getLsbD k != b.getLsbD k) := by
  rw [hdist_toNat, popcount8_eq_countP]
  congr 1
  funext k
  exact BitVec.getLsbD_xor

theorem popcount8_eq_zero_iff (w : BitVec 8) : popcount8 w = 0 ↔ w = 0 := by
  constructor
  · intro h
    rw [popcount8_eq_countP, List.countP_eq_zero] at h
    apply BitVec.eq_of_getLsbD_eq
    intro k hk
    simpa using h k (List.mem_range.mpr hk)
  · rintro rfl
    rfl

/-- To flip a bit is to take its summand out of the count and its complement in. -/
theorem popcount8_flip (w : BitVec 8) (k : Fin 8) :
    popcount8 (w ^^^ 1#8 <<< k.val) + w[k].toNat = popcount8 w + (!w[k]).toNat := by
  fin_cases k <;> simp [popcount8] <;> omega

theorem hdist_flip (a b : BitVec 8) (k : Fin 8) :
    (hdist (a ^^^ 1#8 <<< k.val) b).toNat = (hdist a b).toNat + 1 ∨
      (hdist (a ^^^ 1#8 <<< k.val) b).toNat + 1 = (hdist a b).toNat := by
  have hcomm : a ^^^ 1#8 <<< k.val ^^^ b = a ^^^ b ^^^ 1#8 <<< k.val := by ac_rfl
  have hflip := popcount8_flip (a ^^^ b) k
  rw [hdist_toNat, hdist_toNat, hcomm]
  cases hbit : (a ^^^ b)[k] with
  | false => exact .inl (by simpa [hbit] using hflip)
  | true => exact .inr (by simpa [hbit] using hflip)

theorem hdist_eq_zero_iff (a b : BitVec 8) : hdist a b = 0 ↔ a = b := by
  rw [← BitVec.toNat_inj, hdist_toNat]
  exact (popcount8_eq_zero_iff _).trans BitVec.xor_eq_zero_iff

theorem hdist_self_toNat (a : BitVec 8) : (hdist a a).toNat = 0 := by
  rw [(hdist_eq_zero_iff a a).mpr rfl]
  rfl

theorem hdist_comm (a b : BitVec 8) : hdist a b = hdist b a := by
  rw [hdist, BitVec.xor_comm, hdist]

theorem hdist_complement (a : BitVec 8) : hdist a (a ^^^ 0xFF) = 8 := by
  have hxor : a ^^^ (a ^^^ 0xFF) = 0xFF := by rw [← BitVec.xor_assoc, BitVec.xor_self, BitVec.zero_xor]
  rw [hdist, hxor]
  rfl

/-- Settles O17: HDIST writes the count of the positions that differ, whose laws are those of the weight of the xor. -/
theorem hdistCountsDifferingBits : Obligations.HdistCountsDifferingBits := by
  refine ⟨fun a b s => ⟨hdist a b, exec_eq_next (.hdist a b) s, hdist_toNat_eq_countP a b⟩, fun a b => ?_,
    hdist_flip, fun s => exec_eq_next (.hdist 0xFF 0xFE) s⟩
  have hle : (hdist a b).toNat ≤ 8 := by
    rw [hdist_toNat]
    exact popcount8_le _
  exact ⟨hdist_eq_zero_iff a b, hdist_comm a b, hle, hdist_complement a⟩

/-! ### The selector's scan (R84) -/

theorem closer_of_lt {d : Addr4 → Dist4} {best i : Addr4} (h : d i < d best) : closer d best i = i := if_pos h

theorem closer_of_le {d : Addr4 → Dist4} {best i : Addr4} (h : d best ≤ d i) : closer d best i = best :=
  if_neg (BitVec.not_lt.mpr h)

/-- A scan in ascending order gives an index that is strictly nearer than every one before it. -/
theorem foldl_closer_lt (d : Addr4 → Dist4) (l : List Addr4) (best : Addr4) (hl : (best :: l).Pairwise (· < ·)) :
    ∀ j ∈ best :: l, j < l.foldl (closer d) best → d (l.foldl (closer d) best) < d j := by
  induction l generalizing best with
  | nil =>
    intro j hj hlt
    rw [List.mem_singleton.mp hj] at hlt
    exact absurd hlt (BitVec.lt_irrefl best)
  | cons i l ih =>
    intro j hj hlt
    rw [List.pairwise_cons] at hl
    obtain ⟨hbest, hil⟩ := hl
    rw [List.foldl_cons] at hlt ⊢
    rcases closer_spec d best i with ⟨e, h⟩ | ⟨e, h⟩ <;> rw [e] at hlt ⊢
    · rcases List.mem_cons.mp hj with rfl | hj
      · obtain ⟨hres, -⟩ := foldl_closer_le d l i
        exact Nat.lt_of_le_of_lt hres h
      · exact ih i hil j hj hlt
    · have ih' := ih best (List.pairwise_cons.mpr ⟨fun x hx => hbest x (List.mem_cons_of_mem i hx), hil.of_cons⟩)
      rcases List.mem_cons.mp hj with rfl | hj
      · exact ih' j List.mem_cons_self hlt
      rcases List.mem_cons.mp hj with rfl | hj
      · have hbj : best < j := hbest j List.mem_cons_self
        exact Nat.lt_of_lt_of_le (ih' best List.mem_cons_self (BitVec.lt_trans hbj hlt)) h
      · exact ih' j (List.mem_cons_of_mem best hj) hlt

theorem argmin_le (d : Addr4 → Dist4) (j : Addr4) : d (argmin d) ≤ d j := by
  obtain ⟨hfirst, hlater⟩ := foldl_closer_le d laterIndices 0
  rcases List.mem_cons.mp (mem_indices j) with rfl | hj
  · exact hfirst
  · exact hlater j hj

theorem argmin_lt (d : Addr4 → Dist4) {j : Addr4} (h : j < argmin d) : d (argmin d) < d j :=
  foldl_closer_lt d laterIndices 0 (by decide) j (mem_indices j) h

/-- Settles O18: ARGMIN's index is the scan's, a minimum and before every other. -/
theorem argminIsFirstMinimum : Obligations.ArgminIsFirstMinimum := by
  intro d s
  exact ⟨_, exec_eq_next (.argmin d) s, argmin_le fun i => d.get i.toFin,
    fun _ h => argmin_lt (fun i => d.get i.toFin) h⟩

/-! ### Networks of stages (R85)

A stage of a network is a stage of the scan, and stages are associative. So a network's shape does not matter, only the
order of its entries. -/

theorem closer_assoc (d : Addr4 → Dist4) (a b c : Addr4) :
    closer d (closer d a b) c = closer d a (closer d b c) := by
  rcases closer_spec d a b with ⟨eab, hab⟩ | ⟨eab, hab⟩
  · rcases closer_spec d b c with ⟨ebc, hbc⟩ | ⟨ebc, -⟩
    · rw [eab, ebc, closer_of_lt (BitVec.lt_trans hbc hab)]
    · rw [eab, ebc, eab]
  · rcases closer_spec d b c with ⟨ebc, -⟩ | ⟨ebc, hbc⟩
    · rw [eab, ebc]
    · rw [eab, ebc, eab, closer_of_le (BitVec.le_trans hab hbc)]

theorem select_stage (d : Addr4 → Dist4) (low high : SelectorTree) :
    (SelectorTree.stage low high).select d = closer d (low.select d) (high.select d) := rfl

/-- A scan over a network's entries makes one stage of its start and of what the network selects. -/
theorem foldl_closer_entries (d : Addr4 → Dist4) (net : SelectorTree) (best : Addr4) :
    net.entries.foldl (closer d) best = closer d best (net.select d) := by
  induction net generalizing best with
  | entry i => rfl
  | stage low high ihlow ihhigh =>
    rw [SelectorTree.entries, List.foldl_append, ihlow, ihhigh, closer_assoc, select_stage]

theorem entries_ne_nil (net : SelectorTree) : net.entries ≠ [] := by
  induction net with
  | entry i => exact List.cons_ne_nil i []
  | stage low high ihlow _ => exact List.append_ne_nil_of_left_ne_nil ihlow _

/-- A network selects what the scan over its entries does from the first on. -/
theorem select_eq_foldl (d : Addr4 → Dist4) (net : SelectorTree) {first : Addr4} {later : List Addr4}
    (h : net.entries = first :: later) : net.select d = later.foldl (closer d) first := by
  induction net generalizing first later with
  | entry i =>
    obtain ⟨rfl, rfl⟩ := List.cons.inj h
    rfl
  | stage low high ihlow _ =>
    obtain ⟨first', later', hlow⟩ := List.exists_cons_of_ne_nil (entries_ne_nil low)
    rw [SelectorTree.entries, hlow, List.cons_append] at h
    obtain ⟨rfl, rfl⟩ := List.cons.inj h
    rw [select_stage, ihlow hlow, List.foldl_append, foldl_closer_entries]

/-- Settles O19: a network over the 16 indices in order selects what the scan from index 0 does. -/
theorem everySelectorNetworkIsArgmin : Obligations.EverySelectorNetworkIsArgmin := by
  intro net hnet d s
  have hsel : net.select (fun i => d.get i.toFin) = argmin fun i => d.get i.toFin := select_eq_foldl _ net hnet
  rw [hsel]
  exact exec_eq_next (.argmin d) s

/-! ### The decoder (R82, R86, R87) -/

/-- DEC decodes with the codewords, which are the words of every state's ROM. -/
theorem exec_dec (r : Rx8) (s : State) :
    exec (.dec r) s = .next { s with received_i := r, info_o := decodeWith enc r } := by
  rw [exec_eq_next, State.apply, State.driveDecoder_eq, Rom.read_funext]

/-- With the codewords for its codebook the decoder gives the index that it selects (R86). -/
theorem decodeWith_enc (r : Rx8) : decodeWith enc r = argmin (distances enc r) := infoField_enc _

/-- Settles O21: the index is the one selected. Where all 16 words are 0x01 it is 0, but the low 4 bits are 1. -/
theorem decoderServesAnyCodebook : Obligations.DecoderServesAnyCodebook :=
  ⟨fun cb r => ⟨argmin (distances cb r), rfl, argmin_le (distances cb r),
      fun _ h => argmin_lt (distances cb r) h⟩,
    ⟨fun _ => 0x01, 0x00, by decide⟩, fun r s => exec_eq_next (.dec r) s⟩

/-- Settles O22: the 16 results of HDIST are the distances that DEC selects by. -/
theorem decIsArgminOfHdist : Obligations.DecIsArgminOfHdist := by
  intro r s d hd
  have hdistances : (fun i : Addr4 => d.get i.toFin) = distances s.rom.read r := by
    funext i
    obtain ⟨t, ht, hdist⟩ := hd i
    rw [← hdist, eq_apply_of_exec ht]
    rfl
  refine ⟨s.withSel (argmin fun i => d.get i.toFin), _, exec_eq_next (.argmin d) s, exec_eq_next (.dec r) s, ?_⟩
  rw [hdistances]
  rfl

/-! ### Correction of one flipped bit (R88, R89) -/

/-- A bit that is 1 in an xor is 1 in one of the two words. -/
theorem popcount8_xor_le (a b : BitVec 8) : popcount8 (a ^^^ b) ≤ popcount8 a + popcount8 b := by
  have hbit : ∀ x y : Bool, (x ^^ y).toNat ≤ x.toNat + y.toNat := by decide
  have h0 := hbit a[0] b[0]; have h1 := hbit a[1] b[1]; have h2 := hbit a[2] b[2]; have h3 := hbit a[3] b[3]
  have h4 := hbit a[4] b[4]; have h5 := hbit a[5] b[5]; have h6 := hbit a[6] b[6]; have h7 := hbit a[7] b[7]
  simp only [popcount8, BitVec.getElem_xor]
  omega

theorem hdist_triangle (a b c : BitVec 8) : (hdist a c).toNat ≤ (hdist a b).toNat + (hdist b c).toNat := by
  have hxor : a ^^^ c = (a ^^^ b) ^^^ (b ^^^ c) := by
    rw [BitVec.xor_assoc, ← BitVec.xor_assoc b, BitVec.xor_self, BitVec.zero_xor]
  simp only [hdist_toNat, hxor]
  exact popcount8_xor_le _ _

/-- A word at distance at most 1 from a codeword is decoded to it: the selected codeword is then at distance at most 2
from that one, and two different codewords are at least 3 apart (R71). -/
theorem decodeWith_enc_of_hdist_le_one {r : Rx8} {i : Info4} (h : (hdist r (enc i)).toNat ≤ 1) :
    decodeWith enc r = i := by
  rw [decodeWith_enc]
  by_contra hne
  have hnear : (hdist r (enc (argmin (distances enc r)))).toNat ≤ (hdist r (enc i)).toNat :=
    argmin_le (distances enc r) i
  obtain ⟨hmin, -⟩ := minimumDistanceIsThree
  have hfar := hmin _ _ hne
  have htri := hdist_triangle (enc (argmin (distances enc r))) r (enc i)
  rw [hdist_comm _ r] at htri
  omega

theorem decodeWith_enc_enc (i : Info4) : decodeWith enc (enc i) = i :=
  decodeWith_enc_of_hdist_le_one (by simp only [hdist_self_toNat, Nat.zero_le])

theorem decodeWith_enc_flip (i : Info4) (k : Fin 8) : decodeWith enc (enc i ^^^ 1#8 <<< k.val) = i := by
  have hflip := hdist_flip (enc i) (enc i) k
  rw [hdist_self_toNat] at hflip
  exact decodeWith_enc_of_hdist_le_one (by omega)

/-- Settles O20: the index is the one selected, and the two corner words are within distance 1 of a codeword. -/
theorem decSelectsNearestEntry : Obligations.DecSelectsNearestEntry := by
  refine ⟨fun r s => ⟨argmin (distances s.rom.read r), exec_eq_next (.dec r) s, argmin_le (distances s.rom.read r),
    fun _ h => argmin_lt (distances s.rom.read r) h, ?_⟩, fun s => ?_⟩
  · rw [Rom.read_eq_enc]
    exact infoField_enc _
  · have h0 : decodeWith enc 0x00 = 0 := decodeWith_enc_of_hdist_le_one (by decide)
    have h14 : decodeWith enc 0xFF = 14 := decodeWith_enc_of_hdist_le_one (by decide)
    rw [exec_dec, exec_dec, h0, h14]
    exact ⟨rfl, rfl⟩

/-- Settles O23: ENC and ROMRD both leave the codeword at their port, which is at distance 0 from itself. -/
theorem decodingInvertsEncoding : Obligations.DecodingInvertsEncoding := by
  intro i s
  refine ⟨_, _, _, _, exec_eq_next (.enc i) s, exec_dec _ _, decodeWith_enc_enc i, exec_eq_next (.romrd i) s,
    exec_dec _ _, ?_⟩
  simp only [State.apply, State.driveRom_data_o, Rom.read_eq_enc, decodeWith_enc_enc]

/-- Settles O24: to flip one bit of a codeword leaves it at distance 1. -/
theorem singleBitErrorsAreCorrected : Obligations.SingleBitErrorsAreCorrected := fun i k s =>
  ⟨_, _, exec_eq_next (.enc i) s, exec_dec _ _, decodeWith_enc_flip i k⟩

/-! ### Ties, and the word 0xFF (R90, R93) -/

/-- Settles O26: the decoder is evaluated on the three words. -/
theorem tiesGoToTheLowestIndex : Obligations.TiesGoToTheLowestIndex := by
  intro s
  have h1 : decodeWith enc 0xF0 = 1 := by decide +kernel
  have h0 : decodeWith enc 0x03 = 0 := by decide +kernel
  have h9 : decodeWith enc 0x7F = 9 := by decide +kernel
  simp only [exec_dec, h1, h0, h9, and_self]

/-- Settles O27: DEC's clause is one of R86; the 16 distances of 0xFF from the codewords are evaluated. -/
theorem allOnesDecodesToFourteen : Obligations.AllOnesDecodesToFourteen := by
  intro s
  obtain ⟨-, hcorners⟩ := decSelectsNearestEntry
  obtain ⟨-, hones⟩ := hcorners s
  refine ⟨hones, ?_, s.rom.read_eq_enc 14⟩
  rw [State.cb, Rom.read_funext]
  decide

end Sys2Proof.Machine
end


section
/-! PROOFS. Operations at different entries commute: O46; and what stops a step: O34, O36 and O37. -/

namespace Sys2Proof.Machine

/-! ### What stands at an entry, and operations at two of them (R110, R128) -/

/-- The value on the input port at an entry (R16); no port reaches a sub-block or CBBUILD. -/
def State.inputAt (s : State) : Entry → Option Nat
  | .enc => some s.info_i.toNat
  | .romrd => some s.addr_i.toNat
  | .dec => some s.received_i.toNat
  | _ => none

/-- All that an operation at an entry writes: its input port, where it has one, and its result (R18). -/
def State.writtenAt (s : State) (e : Entry) : Option Nat × Result := (s.inputAt e, s.resultAt e)

/-- Every field but the ROM and the requests stands at some entry. -/
theorem State.ext_writtenAt {s t : State} (hrom : s.rom = t.rom) (hpending : s.pending = t.pending)
    (h : ∀ e, s.writtenAt e = t.writtenAt e) : s = t := by
  have hin (e : Entry) : s.inputAt e = t.inputAt e := congrArg Prod.fst (h e)
  have hres (e : Entry) : s.resultAt e = t.resultAt e := congrArg Prod.snd (h e)
  cases s
  cases t
  simp only [State.mk.injEq]
  exact ⟨hrom, BitVec.eq_of_toNat_eq (Option.some.inj (hin .enc)), Result.codeword.inj (hres .enc),
    BitVec.eq_of_toNat_eq (Option.some.inj (hin .romrd)), Result.codeword.inj (hres .romrd),
    BitVec.eq_of_toNat_eq (Option.some.inj (hin .dec)), Result.nibble.inj (hres .dec),
    Result.bit.inj (hres .par4), Result.bit.inj (hres .par5), Result.bit.inj (hres .par6), Result.bit.inj (hres .par7),
    Result.codeword.inj (hres .gmul), Result.distance.inj (hres .hdist), Result.nibble.inj (hres .argmin), hpending⟩

/-- A frame at one entry leaves what stands at every other: each field that stands there has its clause in the frame. -/
theorem State.FrameAt.writtenAt_eq {e e' : Entry} {s t : State} (h : s.FrameAt e t) (hne : e ≠ e') :
    t.writtenAt e' = s.writtenAt e' := by
  cases e' <;> simp [State.writtenAt, State.inputAt, State.resultAt, hne, h.rom, h.encoderPort, h.romPort,
    h.decoderPort, h.p4, h.p5, h.p6, h.p7, h.product, h.dist, h.sel]

/-- What an operation writes at its own entry is a function of its operands and of the ROM (R15). -/
theorem State.apply_writtenAt_own {s t : State} (hrom : s.rom = t.rom) (i : Instr) :
    (s.apply i).writtenAt i.entry = (t.apply i).writtenAt i.entry := by
  have hin : (s.apply i).inputAt i.entry = (t.apply i).inputAt i.entry := by
    cases i <;> simp [State.inputAt, Instr.entry]
  simp only [State.writtenAt, hin, State.apply_resultAt, hrom]

/-- An operation at another entry may come before or after: what stands at this one is the same. -/
theorem State.writtenAt_apply_comm (s : State) (i : Instr) {j : Instr} {e : Entry} (hne : j.entry ≠ e) :
    ((s.apply i).apply j).writtenAt e = ((s.apply j).apply i).writtenAt e := by
  have hj := s.apply_frameAt j
  rw [((s.apply i).apply_frameAt j).writtenAt_eq hne]
  by_cases hi : i.entry = e
  · subst hi
    exact State.apply_writtenAt_own hj.rom.symm i
  · rw [(s.apply_frameAt i).writtenAt_eq hi, ((s.apply j).apply_frameAt i).writtenAt_eq hi, hj.writtenAt_eq hne]

/-- Operations at different entries leave one state in either order. -/
theorem State.apply_comm (s : State) {i j : Instr} (hij : i.entry ≠ j.entry) :
    (s.apply i).apply j = (s.apply j).apply i := by
  have hi := s.apply_frameAt i
  have hj := s.apply_frameAt j
  have hij' := (s.apply i).apply_frameAt j
  have hji' := (s.apply j).apply_frameAt i
  refine State.ext_writtenAt ?_ ?_ fun e => ?_
  · rw [hij'.rom, hi.rom, hji'.rom, hj.rom]
  · rw [hij'.pending, hi.pending, hji'.pending, hj.pending]
  · by_cases he : j.entry = e
    · exact (s.writtenAt_apply_comm j (he ▸ hij)).symm
    · exact s.writtenAt_apply_comm i he

/-- Settles O46: both operations answer, and each leaves the other's fields and the ROM alone. -/
theorem differentEntriesCommute : Obligations.DifferentEntriesCommute := by
  intro i j s hij
  calc thenExec (exec i s) j = .next ((s.apply i).apply j) := by rw [exec_eq_next, thenExec, exec_eq_next]
    _ = .next ((s.apply j).apply i) := by rw [s.apply_comm hij]
    _ = thenExec (exec j s) i := by rw [exec_eq_next, thenExec, exec_eq_next]

/-! ### What stops a step (R100, R102, R112) -/

/-- An agent that cannot invoke an entry's operation is rejected, whatever the value it offers. -/
theorem decode_of_agent_ne {r : Request} (ha : r.agent ≠ r.entry.agent) :
    decode r = .error (.notInvocable r.agent r.entry) :=
  if_neg ha

/-- Everything the decoder rejects, and under which name: a value that does not fit, or another agent's request. -/
theorem decode_error_cases {r : Request} {e : Reject} (h : decode r = .error e) :
    (r.agent = r.entry.agent ∧ e = rejectAt r.entry r.word) ∨ e = .notInvocable r.agent r.entry := by
  by_cases ha : r.agent = r.entry.agent
  · have hw : ¬ r.fits := fun hw => by simp [decode_legal ⟨ha, hw⟩] at h
    rw [decode_of_not_fits ha hw] at h
    exact .inl ⟨ha, (Except.error.inj h).symm⟩
  · rw [decode_of_agent_ne ha] at h
    exact .inr (Except.error.inj h).symm

/-- A step is refused only for an oldest request that the decoder rejects, and under that rejection's name. -/
theorem step_refused_cases {s : State} {q : Refusal} (h : step s = .refused q) :
    ∃ r rest e, s.pending = r :: rest ∧ decode r = .error e ∧ refusalOf e = q := by
  rcases step_cases s with ⟨-, hs⟩ | ⟨_, rest, i, -, -, hs⟩ | ⟨r, rest, e, hp, hd, hs⟩
  · simp [hs] at h
  · simp [hs, exec_eq_next] at h
  · rw [hs] at h
    exact ⟨r, rest, e, hp, hd, Host.Outcome.refused.inj h⟩

/-- ENC's is the only entry whose wide values are rejected as infoOutOfRange (R100). -/
theorem rejectAt_eq_infoOutOfRange {e : Entry} {w v : Nat} (h : rejectAt e w = .infoOutOfRange v) :
    e = .enc ∧ w = v := by
  cases e <;> simp_all [rejectAt]

theorem refusalOf_eq_infoOutOfRange {e : Reject} {v : Nat} (h : refusalOf e = .infoOutOfRange v) :
    e = .infoOutOfRange v := by
  cases e <;> simp_all [refusalOf]

/-- Only the host's request at ENC for the value itself is rejected as infoOutOfRange. -/
theorem eq_enc_of_decode_infoOutOfRange {r : Request} {v : Nat} (h : decode r = .error (.infoOutOfRange v)) :
    r = ⟨.host, .enc, v⟩ := by
  rcases decode_error_cases h with ⟨ha, hname⟩ | hname
  · obtain ⟨agent, entry, word⟩ := r
    obtain ⟨rfl, rfl⟩ := rejectAt_eq_infoOutOfRange hname.symm
    exact congrArg (Request.mk · .enc word) ha
  · cases hname

/-- Settles O34: an information word fits ENC's operand word just when it is below 16 = 2 ^ 4, and the step refuses it
or encodes it accordingly. -/
theorem wideInformationWordIsRefused : Obligations.WideInformationWordIsRefused := by
  have hfits (v : Nat) : (⟨.host, .enc, v⟩ : Request).fits ↔ v < 16 := Iff.rfl
  refine ⟨fun s v hv => ?_, fun s v hv => ?_, fun s v h => ?_⟩
  · have hwide : ¬ (⟨.host, .enc, v⟩ : Request).fits := by
      rw [hfits]
      omega
    exact step_ask_of_error s (decode_of_not_fits rfl hwide)
  · have hlegal : (⟨.host, .enc, v⟩ : Request).legal := ⟨rfl, (hfits v).2 (by omega)⟩
    exact step_ask_of_legal s hlegal
  · obtain ⟨r, rest, e, hp, hd, he⟩ := step_refused_cases h
    rw [refusalOf_eq_infoOutOfRange he] at hd
    exact ⟨rest, eq_enc_of_decode_infoOutOfRange hd ▸ hp⟩

/-- An operation that its agent asks for runs next, whatever its operands. -/
theorem step_ask_encode (s : State) (i : Instr) : step (s.ask (encode i)) = exec i s :=
  step_eq_exec_of_decode (s := s.ask (encode i)) rfl (decode_encode i)

/-- The host's entries are the ports (R40, R112). -/
theorem agent_eq_host_iff (e : Entry) : e.agent = .host ↔ e.level = .port := by
  unfold Entry.agent
  cases e.level <;> simp

/-- Settles O36: a value on a port is the request that asks for its operation, and the host is not the agent of any
entry that is no port. -/
theorem hostReachesThePortsAlone : Obligations.HostReachesThePortsAlone := by
  refine ⟨fun s v => step_ask_encode s (.enc v), fun s a => step_ask_encode s (.romrd a),
    fun s r => step_ask_encode s (.dec r), fun s e w he => ?_⟩
  have ha : Agent.host ≠ e.agent := fun h => he ((agent_eq_host_iff e).1 h.symm)
  exact step_ask_of_error s (decode_of_agent_ne (r := ⟨.host, e, w⟩) ha)

/-- No step faults: none of the three things a step can do is a fault (R102). -/
theorem step_ne_fault (s : State) (e : Fault) : step s ≠ .fault e := by
  rcases step_cases s with ⟨-, hs⟩ | ⟨_, _, _, -, -, hs⟩ | ⟨_, _, _, -, -, hs⟩
  · simp [hs]
  · simp [hs, exec_eq_next]
  · simp [hs]

/-- A step answers when nothing is asked for and at a legal request, and at no other. -/
theorem exists_step_next_iff (s : State) :
    (∃ t, step s = .next t) ↔ ∀ r rest, s.pending = r :: rest → r.legal := by
  rcases step_cases s with ⟨hp, hs⟩ | ⟨r, rest, i, hp, hd, hs⟩ | ⟨r, rest, e, hp, hd, hs⟩
  · simp [hp, hs]
  · have hl : r.legal := legal_of_decode hd
    simp [hp, hs, exec_eq_next, hl]
  · have hl : ¬ r.legal := fun hl => by simp [decode_legal hl] at hd
    simp [hp, hs, hl]

/-- Settles O37: no step faults, and one answers just at a legal request or at none. -/
theorem onlyMisuseStopsAStep : Obligations.OnlyMisuseStopsAStep :=
  ⟨step_ne_fault, fun s => (exists_step_next_iff s).symm⟩

end Sys2Proof.Machine
end
